-- ==== Sys2Proof/Word.lean ====
section
/-!
DEFINITION. The word types of the HX711 protocol state machine (spec/00_scope.md R9, R7; spec/30_encoding.md R90, R91).
-/

namespace Sys2Proof

/-- A pin level: one bit, `1` is logic high and `0` is logic low (R9). -/
abbrev Level := BitVec 1

/-- Logic high (R9). -/
abbrev high : Level := 1#1

/-- Logic low (R9). -/
abbrev low : Level := 0#1

/-- A command word of the format CW16 (R91). -/
abbrev CommandWord := BitVec 16

/-- The 24-bit two's-complement pattern of one conversion (R102), and the width of `ACC` (R27). -/
abbrev Pattern := BitVec 24

/-- A response of the block, `RESULT_WIDTH` = 32 bits (R7, R93). -/
abbrev Response := BitVec 32

/-- A pin identifier: an opaque handle of the platform (R21, R63).  The block only passes it on; nothing computes
with it, and two identifiers can be told apart. -/
structure PinId where
  handle : Nat
  deriving DecidableEq, Repr, Inhabited

end Sys2Proof
end

