-- ==== Sys2Proof/Syntax.lean ====
section
/-!
DEFINITION. The commands of the block (spec/30_encoding.md R94) and the selections (R100).
-/

namespace Sys2Proof

/-- The converter's two input channels (R100). -/
inductive Channel where
  | a
  | b
  deriving DecidableEq, Repr

/-- The closed enumeration of channel and gain (R100). -/
inductive Selection where
  | a128
  | b32
  | a64
  deriving DecidableEq, Repr, Inhabited

/-- The six commands, in the source's order (R94).  `setGain` carries the selection as its gain number, an unsigned
number without scaling (R95); that it fits the field `imm8` is a check of `Instr.wellFormed`. -/
inductive Instr where
  | setup
  | setGain (sel : Nat)
  | isReady
  | readRaw
  | powerDown
  | powerUp
  deriving DecidableEq, Repr

end Sys2Proof
end

