-- ==== Sys2Proof/WellFormed.lean ====
section
/-!
DEFINITION. Which terms of `Instr` a command word can carry (spec/30_encoding.md R95).
-/

namespace Sys2Proof

/-- The operand of `SET_GAIN` must fit the eight bits of `imm8`; every one of the 256 values is well-formed, also the
253 that are no legal selection (R95). -/
def Instr.wellFormed : Instr → Bool
  | .setup => true
  | .setGain sel => decide (sel < 256)
  | .isReady => true
  | .readRaw => true
  | .powerDown => true
  | .powerUp => true

end Sys2Proof
end

