-- ==== Sys2Proof/Decode.lean ====
section
/-!
DEFINITION. The decoder of command words (spec/30_encoding.md R91, R98), total on all 65536 words and rejecting by name
(R96), and the encoder, written from the word column of R94.  A command word is a value, not bytes (R59).
-/

namespace Sys2Proof

/-- Why a word spells no command (R96). -/
inductive DecodeError where
  /-- `rsv` is not 0. -/
  | reservedBits
  /-- `op` is 0x0 or 0x7 to 0xF. -/
  | unknownOp
  /-- `imm8` is not 0 in a command without operand. -/
  | operandBits
  deriving DecidableEq, Repr

/-- `op = w[15:12]` (R91). -/
def opField (w : CommandWord) : BitVec 4 := w.extractLsb' 12 4

/-- `rsv = w[11:8]` (R91). -/
def rsvField (w : CommandWord) : BitVec 4 := w.extractLsb' 8 4

/-- `imm8 = w[7:0]` (R91). -/
def imm8Field (w : CommandWord) : BitVec 8 := w.extractLsb' 0 8

/-- The command an `op` other than 0x2 names (R94). -/
def commandOfOp : BitVec 4 → Option Instr
  | 0x1#4 => some .setup
  | 0x3#4 => some .isReady
  | 0x4#4 => some .readRaw
  | 0x5#4 => some .powerDown
  | 0x6#4 => some .powerUp
  | _ => none

/-- Decoding (R98).  The order of the checks is the rule's: `rsv`, then `SET_GAIN`, then `imm8`, then `op`. -/
def decode (w : CommandWord) : Except DecodeError Instr :=
  if rsvField w ≠ 0#4 then .error .reservedBits
  else if opField w = 0x2#4 then .ok (.setGain (imm8Field w).toNat)
  else if imm8Field w ≠ 0#8 then .error .operandBits
  else match commandOfOp (opField w) with
    | some i => .ok i
    | none => .error .unknownOp

/-- Encoding: the word column of R94. -/
def encode : Instr → CommandWord
  | .setup => 0x1000#16
  | .setGain sel => 0x2000#16 + BitVec.ofNat 16 sel
  | .isReady => 0x3000#16
  | .readRaw => 0x4000#16
  | .powerDown => 0x5000#16
  | .powerUp => 0x6000#16

/-- The command word whose bits are `w`, of which `nbits` are given and the bits above are 0. -/
def tableWord (nbits w : Nat) : CommandWord := BitVec.ofNat 16 (w % 2 ^ nbits)

/-- What the decoder reads from a word numbered as spec/opcode_table.json numbers its bits: every row is one 16-bit
word (R91). -/
def decodeTableWord (nbits w : Nat) : Option Instr :=
  match decode (tableWord nbits w) with
  | .ok i => some i
  | .error _ => none

end Sys2Proof
end

