-- ==== Sys2Proof/Machine/Flags.lean ====
section
/-!
DEFINITION. The block has no flag and no condition code (spec/10_state.md R31).  The one yes-or-no answer it computes is
that of `IS_READY`, which it stores nowhere but in the response.
-/

namespace Sys2Proof.Machine

/-- The answer of `IS_READY` from the sampled level: `zext_32(1 - b)`, 1 (true) exactly when the level is low (R140). -/
def readyAnswer (b : Level) : Response := (1#1 - b).zeroExtend 32

end Sys2Proof.Machine
end

