-- ==== Sys2Proof/Config.lean ====
section
/-!
DEFINITION. What an implementation fixes (spec/00_scope.md R6, R7, R8) and the free values.  A parameter the spec
leaves open and a value it leaves free are constants with no body, so that no proof can lean on their value.
-/

namespace Sys2Proof

/-! ## The fixed numbers of the protocol (R6) -/

/-- `DATA_BITS`. -/
def Config.dataBits : Nat := 24

/-- `SEL_MIN`. -/
def Config.selMin : Nat := 1

/-- `SEL_MAX`. -/
def Config.selMax : Nat := 3

/-- `FRAME_MIN`. -/
def Config.frameMin : Nat := 25

/-- `FRAME_MAX`. -/
def Config.frameMax : Nat := 27

/-- `RAW_MAX`, the greatest raw reading (R6, R102). -/
def Config.rawMax : Int := 8388607

/-- `RAW_MIN`, the least raw reading (R6, R102). -/
def Config.rawMin : Int := -8388608

/-- `DEFAULT_SEL`: the selection an instance takes when none is given (R6); also the chip's own default (R78). -/
def Config.defaultSel : Selection := .a128

/-! ## Timing parameters in microseconds (R8) -/

/-- `T_BIT_HIGH_MIN`: the least hold of the clock high in a bit cycle. -/
def Config.tBitHighMin : Nat := 2

/-- `T_PD_HOLD_MIN`: the least hold of the clock high in `POWER_DOWN`. -/
def Config.tPdHoldMin : Nat := 100

/-- `T_PD_THRESH`: a clock high held longer puts the chip to sleep. -/
def Config.tPdThresh : Nat := 60

/-- How far `T_SEL_HIGH` lies above its least value: an open parameter (R8, D12).  The type holds the constraint
`T_BIT_HIGH_MIN <= T_SEL_HIGH < T_PD_THRESH`.  DESIGN CHOICE (notes/assumptions/18.md), safe. -/
opaque Config.selHighAboveMin : Fin 58

/-- `T_SEL_HIGH`: the hold of the high level of a selection pulse, an open parameter (R8, D12). -/
def Config.tSelHigh : Nat := Config.tBitHighMin + Config.selHighAboveMin.val

/-- `T_SEL_LOW`: the hold of the low level of a selection pulse, an open parameter (R8, D12). -/
opaque Config.tSelLow : Nat

/-- `T_BIT_LOW`: the low time between two bit cycles, a property of the implementation that emits no event (R8,
R144, D14); nothing in the model reads it. -/
opaque Config.tBitLow : Nat

/-- `F_CLK` in hertz: open, for a clocked implementation only (R7, D11). -/
opaque Config.fClk : Nat

/-- `TICKS(n) = ceil(n * F_CLK / 10^6)`: what a clocked implementation loads its delay counter with (R200, D11). -/
def Config.ticks (fClk n : Nat) : Nat := (n * fClk + 999999) / 1000000

/-! ## Pin identifiers (R7, R21, D30): two distinct values of an opaque type -/

/-- The handle behind `CLOCK_PIN`: an open parameter.  DESIGN CHOICE (notes/assumptions/5.md), safe. -/
opaque Config.clockHandle : Nat

/-- The handle behind `DATA_PIN`, counted among the handles other than `CLOCK_PIN`'s: an open parameter. -/
opaque Config.dataHandle : Nat

/-- `CLOCK_PIN`. -/
def Config.clockPin : PinId := ⟨Config.clockHandle⟩

/-- `DATA_PIN`: any handle but `CLOCK_PIN`'s (R7, D30). -/
def Config.dataPin : PinId :=
  ⟨if Config.dataHandle < Config.clockHandle then Config.dataHandle else Config.dataHandle + 1⟩

/-! ## Free values -/

/-- The level of the `n`-th answer that neither a written answer nor the reference chip fixes (R57(a), U2, U3, U12,
U23): a free value.  DESIGN CHOICE (notes/assumptions/2.md), safe. -/
opaque Config.freeLevel : Nat → Level

/-- The selection a conversion made in `DESYNC` is tagged with (R81): a free value.  DEDUCED (notes/assumptions/17.md), safe. -/
opaque Config.freeTag : Nat → Selection

/-- The level of the clock pin at the instant it becomes an output (R123(c), U9): a free value of the platform.
DEDUCED (notes/assumptions/10.md), safe. -/
opaque Config.clockLevelAtOutput : Level

end Sys2Proof
end

