-- ==== Sys2Proof/Machine/Operands.lean ====
section
/-!
DEFINITION. The one operand of the command set, the selection (spec/30_encoding.md R95, R100), and the block's whole
arithmetic on data (spec/41_acquisition.md R160): the shift into `ACC` and the sign extension.
-/

namespace Sys2Proof.Machine

/-- The gain number that carries a selection in `imm8` (R95, R100). -/
def gainOf : Selection → Nat
  | .a128 => 128
  | .b32 => 32
  | .a64 => 64

/-- The channel of a selection (R100). -/
def channelOf : Selection → Channel
  | .a128 => .a
  | .b32 => .b
  | .a64 => .a

/-- The selection a gain number names; any other number names none (R95, R128). -/
def selectionOf (sel : Nat) : Option Selection :=
  if sel = 128 then some .a128
  else if sel = 32 then some .b32
  else if sel = 64 then some .a64
  else none

/-- `PULSE_COUNT` of a selection: A128 is 1, B32 is 2, A64 is 3 (R100). -/
def pulsesOf : Selection → BitVec 2
  | .a128 => 1#2
  | .b32 => 2#2
  | .a64 => 3#2

/-- The value `SET_GAIN` and construction give `PULSE_COUNT` (R126, R221); none for an illegal selection (R128). -/
def pulseCountOf (sel : Nat) : Option (BitVec 2) := (selectionOf sel).map pulsesOf

/-- The selection that a frame of `24 + n` pulses latches into the chip (R75, R100); a frame of another length latches
none (R76). -/
def selectionOfPulses : Nat → Option Selection
  | 1 => some .a128
  | 2 => some .b32
  | 3 => some .a64
  | _ => none

/-- One bit cycle's change of `ACC`: shift left by one and set bit 0 to the sample, `{ACC[22:0], b}` (R144). -/
def shiftIn (acc : Pattern) (b : Level) : Pattern := acc.extractLsb' 0 23 ++ b

/-- Step 3 of `READ_RAW`, the sign extension: the 24 bits in the high bits of a 32-bit word, then an arithmetic shift
right by 8 (R142, R148). -/
def widen (acc : Pattern) : Response := (acc ++ 0#8).sshiftRight 8

end Sys2Proof.Machine
end

