-- ==== Sys2Proof/Machine/State.lean ====
section
/-!
DEFINITION. The state of the machine as plain data: the block (spec/10_state.md R20), the environment that answers its
reads (spec/20_memory.md R57, R71), and the caller's side of the command face (spec/30_encoding.md R92).  Also the reasons
for a fault or a refusal (spec/60_exceptions.md R192, R193) and the state after reset (R37, R220).
The block has no memory (R50), so there is no list of memory cells.
-/

namespace Sys2Proof.Machine

open Sys2Proof

/-! ## Parts -/

/-- The two pin modes the block asks for (R10, D31). -/
inductive PinMode where
  | output
  | input
  deriving DecidableEq, Repr

/-- `SCK_DIR` (R26). -/
inductive ClockDir where
  | unconfigured
  | output
  deriving DecidableEq, Repr

/-- `DOUT_DIR` (R26). -/
inductive DataDir where
  | unconfigured
  | input
  deriving DecidableEq, Repr

/-- The model's record of the power state (R33). -/
inductive Power where
  | unknown
  | active
  | down
  deriving DecidableEq, Repr

/-- The four events (R11). -/
inductive Event where
  /-- `CFG(pin, mode)`, a `PinMode`. -/
  | cfg (pin : PinId) (mode : PinMode)
  /-- `WR(pin, level)`, a `MemWrite`. -/
  | wr (pin : PinId) (level : Level)
  /-- `RD(pin, level)`, a `MemRead` whose answer was `level`. -/
  | rd (pin : PinId) (level : Level)
  /-- `DLY(n)`, a `Delay(n)` of at least `n` microseconds. -/
  | dly (n : Nat)
  deriving DecidableEq, Repr

/-- `SEQ`: no command in progress, or command `c` with `k` of its events already emitted (R29). -/
inductive Seq where
  | idle
  | run (c : Instr) (k : Nat)
  deriving DecidableEq, Repr

/-- `chip_power` of the reference chip (R71). -/
inductive ChipPower where
  | on
  | asleep
  deriving DecidableEq, Repr

/-- What an edge the block makes on the clock line belongs to (R12, R101, R103). -/
inductive PulseKind where
  /-- Pulse 1 of the frame of a read. -/
  | first
  /-- A later pulse of that frame. -/
  | later
  /-- No pulse of a frame: the high of `SETUP` or `POWER_DOWN`, the low of `SETUP` or `POWER_UP` (R103, R121). -/
  | request
  deriving DecidableEq, Repr

/-- The reference chip (R71, R81). -/
structure Chip where
  /-- `chip_power`. -/
  power : ChipPower
  /-- `chip_sel`: the selection the chip converts with. -/
  sel : Selection
  /-- `chip_data`: the conversion on offer. -/
  data : Pattern
  /-- The selection `chip_data` was converted under, its tag (R79). -/
  dataSel : Selection
  /-- `chip_ready`: a conversion is on offer and not yet shifted out. -/
  ready : Bool
  /-- `chip_cnt`: pulses seen since the conversion on offer became ready. -/
  cnt : Nat
  /-- The level the chip drives on the data line. -/
  dout : Level
  /-- `high_since`, held as the microseconds asked for since the last rising edge; none while the clock line is low.
  DESIGN CHOICE (notes/assumptions/8.md), unsafe: the time is what the delays ask for. -/
  highFor : Option Nat
  /-- The state `DESYNC` (R81). -/
  desync : Bool
  deriving DecidableEq, Repr

/-- Who answers a `MemRead` (R57): the free oracle when no chip is attached, the reference chip otherwise. -/
structure Env where
  /-- Answers of the oracle already chosen, next one first; a statement for every list is a statement for every oracle. -/
  answers : List Level
  /-- How many opaque free values have been drawn. -/
  draws : Nat
  /-- The reference chip, if it is the environment. -/
  chip : Option Chip
  /-- The conversions the reference chip completes before each coming event of the block, next event first; a list that
  has run out completes no more (R79).  DESIGN CHOICE (notes/assumptions/4.md), unsafe for endless runs. -/
  schedule : List (List Pattern)
  deriving DecidableEq, Repr

/-- The state of one instance of the block (R20), with its environment and its caller. -/
structure State where
  /-- `CLOCK_PIN` (R21). -/
  clockPin : PinId
  /-- `DATA_PIN` (R21). -/
  dataPin : PinId
  /-- `PULSE_COUNT` (R22); the pattern 0 is no legal value (D9). -/
  pulseCount : BitVec 2
  /-- `SCK`, the level last driven on the clock line (R25). -/
  sck : Level
  /-- `SCK_DIR` (R26). -/
  sckDir : ClockDir
  /-- `DOUT_DIR` (R26). -/
  doutDir : DataDir
  /-- `ACC`, the shift accumulator (R27). -/
  acc : Pattern
  /-- `RESULT`, the payload of a response (R28). -/
  result : Response
  /-- `SEQ`, the sequencer position (R29). -/
  seq : Seq
  /-- `setup_done`, ghost (R34). -/
  setupDone : Bool
  /-- `power`, ghost (R33). -/
  power : Power
  /-- `trace`, ghost, oldest event first (R35). -/
  trace : List Event
  /-- The responses handed to the caller, oldest first (R10, R93): the model's own record of the response face.
  DESIGN CHOICE (notes/assumptions/7.md), safe. -/
  responses : List Response
  /-- The caller's command words not yet accepted, next one first (R92, R204): the model's own field. -/
  commands : List CommandWord
  /-- The environment (R57). -/
  env : Env
  deriving DecidableEq, Repr

/-! ## Stops -/

/-- The model's fault reasons (R192). -/
inductive Fault where
  /-- Raised by `SET_GAIN` and by construction with a selection other than 128, 32, 64, and by `READ_RAW` when
  `PULSE_COUNT` holds no legal value (R128, R153(c), R221).  Safe: the machine stops where the hardware goes on with a
  count nobody knows. -/
  | undefinedSelection
  deriving DecidableEq, Repr

/-- The model's refusal reasons (R193). -/
inductive Refusal where
  /-- An instruction without a meaning yet.  Safe.  No arm of `exec` raises it. -/
  | notModelled (mnemonic : String)
  /-- Raised by `step` on a word that spells no command (R96).  Safe: no state changes. -/
  | illegalCommand
  /-- Raised by `IS_READY`, `READ_RAW`, `POWER_DOWN`, `POWER_UP` before `SETUP` (R122).  Safe. -/
  | notSetUp
  /-- Raised by a second `SETUP` (R122).  Safe. -/
  | setupRepeated
  /-- Raised by `READ_RAW` when the driven clock level is 1 on entry (R153(b)).  Safe. -/
  | clockNotLow
  /-- Raised by `exec` for a command offered while `SEQ` is not `IDLE` (R92, U7).  Safe; `step` never offers one. -/
  | notAccepted
  /-- Raised by construction with one identifier for both pins (R7, U16), and by a step of several blocks that do not each have
  their own pins (R202, U16, D28).  Safe. -/
  | pinsShared
  deriving DecidableEq, Repr

/-- What a command ends in (R13). -/
abbrev Result := Host.Outcome State Fault Refusal

/-! ## Reset -/

/-- The free oracle with no answer chosen yet (R57(a)). -/
def Env.free : Env := { answers := [], draws := 0, chip := none, schedule := [] }

/-- A block just constructed with these pins and this pulse count, before this environment (R37, R220).  DESIGN CHOICE
(notes/assumptions/1.md), unsafe: `SCK`, `ACC` and `RESULT`, which the spec leaves unspecified, are 0. -/
def State.constructed (clockPin dataPin : PinId) (pulseCount : BitVec 2) (env : Env) : State where
  clockPin := clockPin
  dataPin := dataPin
  pulseCount := pulseCount
  sck := low
  sckDir := .unconfigured
  doutDir := .unconfigured
  acc := 0#24
  result := 0#32
  seq := .idle
  setupDone := false
  power := .unknown
  trace := []
  responses := []
  commands := []
  env := env

/-- The machine right after reset with `INIT_SEL` at its default (R37, R220), before the free oracle.  DESIGN CHOICE
(notes/assumptions/3.md, 5.md), safe. -/
def State.reset : State :=
  State.constructed Config.clockPin Config.dataPin (pulsesOf Config.defaultSel) Env.free

end Sys2Proof.Machine
end

