-- ==== Sys2Proof/Machine/Chip.lean ====
section
/-!
DEFINITION. The reference chip (spec/20_memory.md R71 to R81): how it reacts to the edges and the high time of the clock
line, when it completes a conversion, and when its answer is fixed.  It is the environment, never the block (R70).
-/

namespace Sys2Proof.Machine

open Sys2Proof

/-- `DESYNC` is entered and left by nothing but the wake (R81). -/
def Chip.lose (c : Chip) : Chip := { c with desync := true }

/-- The rising edge of one more frame pulse, for a chip that is on and synchronised: data bit `24 - k` on pulse `k` up to 24
(R73), not ready from pulse 25 on (R74), a pulse without a conversion on offer or a 28th pulse loses the frame (R76, R81). -/
def Chip.pulse (c : Chip) : Chip :=
  if c.cnt = 0 ∧ c.ready = false then c.lose
  else if c.cnt < 24 then { c with cnt := c.cnt + 1, dout := c.data.extractLsb' (23 - c.cnt) 1 }
  else if c.cnt = 24 then { c with cnt := 25, ready := false, dout := high }
  else if c.cnt < 27 then { c with cnt := c.cnt + 1, dout := high }
  else c.lose

/-- A rising edge of the clock line.  The rise of a sleep request is no frame pulse and only starts the high (R103, R121).  A read
that starts when no whole conversion is on offer desynchronises the chip (R81).  DEDUCED (notes/assumptions/16.md), safe. -/
def Chip.rise (kind : PulseKind) (c : Chip) : Chip :=
  let c := { c with highFor := some 0 }
  if c.power = .asleep ∨ c.desync = true then c
  else match kind with
    | .first => if c.ready = true ∧ c.cnt = 0 then c.pulse else c.lose
    | .later => c.pulse
    | .request => c

/-- The wake: the chip is on again and reset to selection A128 (R78). -/
def Chip.wake (c : Chip) : Chip :=
  { c with power := .on, sel := Config.defaultSel, ready := false, cnt := 0, dout := high, desync := false }

/-- A falling edge that ends a high of `held` microseconds: the wake of a chip asleep (R78).  A chip that is still on is
desynchronised after too short a hold: less than `T_BIT_HIGH_MIN` for a frame pulse, any for a sleep request, whose hold must
exceed the threshold (R81, R234).  DEDUCED (notes/assumptions/15.md), safe. -/
def Chip.fall (kind : PulseKind) (held : Nat) (c : Chip) : Chip :=
  let c := { c with highFor := none }
  if c.power = .asleep then c.wake
  else if held < Config.tBitHighMin ∨ kind = .request then c.lose
  else c

/-- The block drives the clock line to level `v`; a level the line already has makes no edge (R54). -/
def Chip.drive (kind : PulseKind) (v : Level) (c : Chip) : Chip :=
  match c.highFor with
  | none => if v = high then c.rise kind else c
  | some held => if v = high then c else c.fall kind held

/-- `n` microseconds pass; a clock line high for longer than `T_PD_THRESH` puts the chip to sleep, and a chip asleep
offers no conversion (R77), DEDUCED (notes/assumptions/14.md), safe.  DESIGN CHOICE (notes/assumptions/8.md), unsafe: the time
is what the delays ask for. -/
def Chip.elapse (n : Nat) (c : Chip) : Chip :=
  match c.highFor with
  | none => c
  | some held =>
    if Config.tPdThresh < held + n then { c with highFor := some (held + n), power := .asleep, ready := false }
    else { c with highFor := some (held + n) }

/-- The selection the next conversion is made with: what the last frame latched, if it was a whole one (R75). -/
def Chip.latched (c : Chip) : Selection :=
  match selectionOfPulses (c.cnt - 24) with
  | some s => s
  | none => c.sel

/-- The step `NewConversion(d)` is enabled: the chip is on, the clock line low, no frame half way (R79).  In `DESYNC` the
chip's own count says nothing (R81).  DEDUCED (notes/assumptions/17.md), safe. -/
def Chip.mayConvert (c : Chip) : Bool :=
  decide (c.power = .on) && c.highFor.isNone && (c.desync || [0, 25, 26, 27].contains c.cnt)

/-- The step `NewConversion(d)` (R79); where it is not enabled nothing happens.  In `DESYNC` the data may be tagged with
any selection, here `tag` (R81). -/
def Chip.newConversion (tag : Selection) (d : Pattern) (c : Chip) : Chip :=
  if c.mayConvert = false then c
  else if c.desync then { c with data := d, dataSel := tag }
  else { c with sel := c.latched, dataSel := c.latched, data := d, cnt := 0, ready := true, dout := low }

/-- Whether the chip's answer is fixed: it is on (N6), synchronised (R81), and the bit has had the block's hold to
settle since the rising edge (R73, N4).  Otherwise any level may come back.  DEDUCED
(notes/assumptions/15.md), safe. -/
def Chip.definite (c : Chip) : Bool :=
  decide (c.power = .on) && !c.desync &&
    (match c.highFor with
     | none => true
     | some held => decide (Config.tBitHighMin ≤ held))

end Sys2Proof.Machine
end

