-- ==== Sys2Proof/Machine/Environment.lean ====
section
/-!
DEFINITION. The environment's side of the pin space (spec/20_memory.md R57, R66): who answers a read, what the chip does
between two events, and what it sees of the clock line.  Under the free oracle only the answers move.
-/

namespace Sys2Proof.Machine

open Sys2Proof

/-- The free oracle's next answer: the next one chosen, else a free value (R57(a)). -/
def Env.draw (e : Env) : Level × Env :=
  match e.answers with
  | b :: rest => (b, { e with answers := rest })
  | [] => (Config.freeLevel e.draws, { e with draws := e.draws + 1 })

/-- The level a `MemRead` returns: the reference chip's where it is fixed, else any (R57, R72, R81).  A read has no effect
on the chip (R55). -/
def Env.sample (e : Env) : Level × Env :=
  match e.chip with
  | none => e.draw
  | some c => if c.definite then (c.dout, e) else e.draw

/-- The chip completes the conversion `d` (R79). -/
def Env.convert (d : Pattern) (e : Env) : Env :=
  match e.chip with
  | none => e
  | some c => { e with chip := some (c.newConversion (Config.freeTag e.draws) d), draws := e.draws + 1 }

/-- The chip completes several conversions, one after the other. -/
def Env.convertAll : List Pattern → Env → Env
  | [], e => e
  | d :: ds, e => Env.convertAll ds (e.convert d)

/-- The chip's turn before an event of the block (R66, R145): it completes the conversions its schedule has there.
DEDUCED from R79 and U22 (notes/assumptions/9.md), unsafe: while a frame is half way it completes none. -/
def Env.turn (midFrame : Bool) (e : Env) : Env :=
  match e.chip, e.schedule with
  | some _, ds :: rest =>
    if midFrame then { e with schedule := rest } else Env.convertAll ds { e with schedule := rest }
  | _, _ => e

/-- The chip sees the clock line at level `v` (R54). -/
def Env.drive (kind : PulseKind) (v : Level) (e : Env) : Env := { e with chip := e.chip.map (Chip.drive kind v) }

/-- The chip sees `n` microseconds pass (R77). -/
def Env.elapse (n : Nat) (e : Env) : Env := { e with chip := e.chip.map (Chip.elapse n) }

end Sys2Proof.Machine
end

