-- ==== Sys2Proof/Machine/Ops.lean ====
section
/-!
DEFINITION. The named operations every command is made of: acceptance (spec/30_encoding.md R92), the four primitives
(spec/20_memory.md R52 to R56), the response, the end of a command, and the checks before it (spec/60_exceptions.md R195).
The block takes no exception and returns from none (R190, R196, R197), so there is no operation for either.
-/

namespace Sys2Proof.Machine

open Sys2Proof

/-! ## The sequencer -/

/-- Each event emitted advances `k` by one (R30). -/
def Seq.bump : Seq → Seq
  | .idle => .idle
  | .run c k => .run c (k + 1)

/-- Acceptance of a command: `SEQ <- RUN(c, 0)` (R30), and `READ_RAW` clears `ACC` (R143). -/
def State.accept (c : Instr) (s : State) : State :=
  match c with
  | .readRaw => { s with seq := .run c 0, acc := 0#24 }
  | _ => { s with seq := .run c 0 }

/-- The end of a command: `SEQ <- IDLE` (R30). -/
def State.finish (s : State) : State := { s with seq := .idle }

/-- What the next edge belongs to: pulse 1 of a read is its first event (R12); only the pulses of a read are frame pulses
(R103). -/
def State.pulseKind (s : State) : PulseKind :=
  match s.seq with
  | .run .readRaw 0 => .first
  | .run .readRaw _ => .later
  | _ => .request

/-- A frame of the wire is half way: a read has begun its first pulse and not ended its last (R79, R101). -/
def State.midFrame (s : State) : Bool :=
  match s.seq with
  | .run .readRaw k => decide (0 < k) && decide (k < 95 + 4 * s.pulseCount.toNat)
  | _ => false

/-- Every use of a primitive appends its event to the trace (R11) and advances the sequencer (R30). -/
def State.emit (e : Event) (s : State) : State := { s with trace := s.trace ++ [e], seq := s.seq.bump }

/-- The chip may take steps of its own before the block's next primitive (R66). -/
def State.chipTurn (s : State) : State := { s with env := s.env.turn s.midFrame }

/-! ## The primitives -/

/-- `PinMode(CLOCK_PIN, OUTPUT)` (R53).  A pin that becomes an output takes a level the platform chooses (R123(c), U9).
DEDUCED (notes/assumptions/10.md), safe. -/
def State.pinModeClock (s : State) : State :=
  let t := s.chipTurn
  State.emit (.cfg s.clockPin .output)
    { t with
      sckDir := .output
      env := if s.sckDir = .unconfigured then t.env.drive .request Config.clockLevelAtOutput else t.env }

/-- `PinMode(DATA_PIN, INPUT)` (R53). -/
def State.pinModeData (s : State) : State :=
  State.emit (.cfg s.dataPin .input) { s.chipTurn with doutDir := .input }

/-- `MemWrite(CLOCK_PIN, 1, v)` (R54): the latch takes `v`, and the line follows while the pin is an output (R25).
DEDUCED (notes/assumptions/19.md), safe: before `SETUP` the chip sees nothing of the latch. -/
def State.memWrite (v : Level) (s : State) : State :=
  let t := s.chipTurn
  State.emit (.wr s.clockPin v)
    { t with
      sck := v
      env := if s.sckDir = .output then t.env.drive s.pulseKind v else t.env }

/-- `MemRead(DATA_PIN, 1)` (R55): one sample, chosen by the environment (R57); no effect on the block's state. -/
def State.memRead (s : State) : Level × State :=
  let t := s.chipTurn
  let a := t.env.sample
  (a.1, State.emit (.rd s.dataPin a.1) { t with env := a.2 })

/-- `Delay(n)` (R56). -/
def State.delay (n : Nat) (s : State) : State :=
  let t := s.chipTurn
  State.emit (.dly n) { t with env := t.env.elapse n }

/-- `x[RESULT] <- v` and `respond(v)` (R10, R28, R93). -/
def State.respond (v : Response) (s : State) : State := { s with result := v, responses := s.responses ++ [v] }

/-! ## The checks before a command, in the order of R195 -/

/-- A command is accepted only when `SEQ` is `IDLE` (R92).  DEDUCED (notes/assumptions/12.md), safe. -/
def whenIdle (s : State) (k : Result) : Result := if s.seq = .idle then k else .refused .notAccepted

/-- A command that touches hardware comes only after `SETUP` (R122). -/
def whenSetUp (s : State) (k : Result) : Result := if s.setupDone = true then k else .refused .notSetUp

/-- `SETUP` comes only once (R122). -/
def whenNotSetUp (s : State) (k : Result) : Result := if s.setupDone = true then .refused .setupRepeated else k

/-- `READ_RAW` begins only with the clock low (R153(b), R240). -/
def whenClockLow (s : State) (k : Result) : Result := if s.sck = low then k else .refused .clockNotLow

/-- `READ_RAW` needs a `PULSE_COUNT` with a value (R153(c)); the pattern 0 is none (D9).  DEDUCED (notes/assumptions/11.md),
safe. -/
def whenCounted (s : State) (k : Result) : Result := if s.pulseCount = 0#2 then .fault .undefinedSelection else k

end Sys2Proof.Machine
end

