-- ==== Sys2Proof/Machine/Acquisition.lean ====
section
/-!
DEFINITION. The acquisition commands `IS_READY` and `READ_RAW` (spec/41_acquisition.md R140 to R157).
-/

namespace Sys2Proof.Machine

open Sys2Proof

/-- The one sample of `IS_READY` and its answer (R140). -/
def State.poll (s : State) : State :=
  let a := s.memRead
  { a.2 with result := readyAnswer a.1 }

/-- `IS_READY` responds with the answer it computed (R140). -/
def State.endPoll (s : State) : State := State.finish (s.respond s.result)

/-- `IS_READY` (R140). -/
def execIsReady (s : State) : Result :=
  whenIdle s <| whenSetUp s <| .next (s.accept .isReady).poll.endPoll

/-- The SAMPLE row of a bit cycle: one sample, shifted into `ACC` (R144, R145). -/
def State.sampleBit (s : State) : State :=
  let a := s.memRead
  { a.2 with acc := shiftIn a.2.acc a.1 }

/-- One bit cycle (R144): rise, hold, sample, fall. -/
def State.bitCycle (s : State) : State :=
  let s := s.memWrite high
  let s := s.delay Config.tBitHighMin
  let s := s.sampleBit
  s.memWrite low

/-- `n` bit cycles (R142, step 1). -/
def State.bitCycles : Nat → State → State
  | 0, s => s
  | n + 1, s => State.bitCycles n s.bitCycle

/-- One selection pulse (R146): rise, hold high, fall, hold low; no sample. -/
def State.selPulse (s : State) : State :=
  let s := s.memWrite high
  let s := s.delay Config.tSelHigh
  let s := s.memWrite low
  s.delay Config.tSelLow

/-- `n` selection pulses (R142, step 2). -/
def State.selPulses : Nat → State → State
  | 0, s => s
  | n + 1, s => State.selPulses n s.selPulse

/-- The FINISH row of `READ_RAW` (R145, R148): sign extension, response, `IDLE`. -/
def State.endRead (s : State) : State := State.finish (s.respond (widen s.acc))

/-- The body of `READ_RAW`, whole (R142), without the checks before it: what the hardware does, also with the clock high
on entry (R153(b)).  `PULSE_COUNT` is read once, after bit cycle 23 (R146). -/
def State.readRawBody (s : State) : State :=
  let s := s.accept .readRaw
  let s := State.bitCycles Config.dataBits s
  let s := State.selPulses s.pulseCount.toNat s
  s.endRead

/-- `READ_RAW` (R141, R153).  That the chip is not ready is no outcome: the block reads what it samples (R153(d)). -/
def execReadRaw (s : State) : Result :=
  whenIdle s <| whenSetUp s <| whenClockLow s <| whenCounted s <| .next s.readRawBody

end Sys2Proof.Machine
end

