-- ==== Sys2Proof/Machine/Configuration.lean ====
section
/-!
DEFINITION. The configuration commands `SETUP` and `SET_GAIN` (spec/40_setup_config.md R120 to R130).
-/

namespace Sys2Proof.Machine

open Sys2Proof

/-- What `SETUP` leaves besides its events (R121). -/
def State.endSetup (s : State) : State := State.finish { s with power := .active, setupDone := true }

/-- The body of `SETUP`, five primitives in order (R120), without the check that it comes only once: what the hardware
does, also a second time (R123(b)). -/
def State.setupBody (s : State) : State :=
  let s := s.accept .setup
  let s := s.pinModeClock
  let s := s.pinModeData
  let s := s.memWrite high
  let s := s.delay Config.tPdHoldMin
  let s := s.memWrite low
  s.endSetup

/-- `SETUP` (R120, R122). -/
def execSetup (s : State) : Result :=
  whenIdle s <| whenNotSetUp s <| .next s.setupBody

/-- What `SET_GAIN` does once accepted: `PULSE_COUNT` from the selection, no event (R126), no value for an illegal
selection (R128). -/
def State.endSetGain (sel : Nat) (s : State) : Result :=
  match pulseCountOf sel with
  | some n => .next (State.finish { s with pulseCount := n })
  | none => .fault .undefinedSelection

/-- `SET_GAIN` (R126); legal in every state of the power state machine. -/
def execSetGain (sel : Nat) (s : State) : Result :=
  whenIdle s <| State.endSetGain sel (s.accept (.setGain sel))

end Sys2Proof.Machine
end

