-- ==== Sys2Proof/Machine/PowerCommands.lean ====
section
/-!
DEFINITION. The power commands `POWER_DOWN` and `POWER_UP` (spec/42_power.md R170 to R179).
-/

namespace Sys2Proof.Machine

open Sys2Proof

/-- What `POWER_DOWN` leaves besides its events (R171). -/
def State.endPowerDown (s : State) : State := State.finish { s with power := .down }

/-- `POWER_DOWN` (R170). -/
def execPowerDown (s : State) : Result :=
  whenIdle s <| whenSetUp s <|
    .next (((s.accept .powerDown).memWrite high).delay Config.tPdHoldMin).endPowerDown

/-- What `POWER_UP` leaves besides its event (R175). -/
def State.endPowerUp (s : State) : State := State.finish { s with power := .active }

/-- `POWER_UP` (R174); it does not re-apply the selection (R176). -/
def execPowerUp (s : State) : Result :=
  whenIdle s <| whenSetUp s <| .next ((s.accept .powerUp).memWrite low).endPowerUp

end Sys2Proof.Machine
end

