-- ==== Sys2Proof/Machine/Dispatch.lean ====
section
/-!
DEFINITION. One arm per command, in the order of the opcode table (spec/30_encoding.md R94).
-/

namespace Sys2Proof.Machine

open Sys2Proof

def exec (i : Instr) (s : State) : Host.Outcome State Fault Refusal :=
  match i with
  | .setup => Sys2Proof.Machine.execSetup s
  | .setGain sel => Sys2Proof.Machine.execSetGain sel s
  | .isReady => Sys2Proof.Machine.execIsReady s
  | .readRaw => Sys2Proof.Machine.execReadRaw s
  | .powerDown => Sys2Proof.Machine.execPowerDown s
  | .powerUp => Sys2Proof.Machine.execPowerUp s

end Sys2Proof.Machine
end

