-- ==== Sys2Proof/Machine/Sequencer.lean ====
section
/-!
DEFINITION. The sequencer, one row at a time (spec/41_acquisition.md R145; spec/10_state.md R29, R30): what the block does
next when a command is in progress.  `exec` carries a whole command out at once; that both agree is a statement.
-/

namespace Sys2Proof.Machine

open Sys2Proof

/-- How many events a command has (R30, R61, R152): it depends on the command and on `PULSE_COUNT` alone. -/
def eventCount (c : Instr) (pulseCount : BitVec 2) : Nat :=
  match c with
  | .setup => 5
  | .setGain _ => 0
  | .isReady => 1
  | .readRaw => 96 + 4 * pulseCount.toNat
  | .powerDown => 2
  | .powerUp => 1

/-- The row of event `k` of `SETUP` (R120). -/
def State.setupRow (k : Nat) (s : State) : State :=
  match k with
  | 0 => s.pinModeClock
  | 1 => s.pinModeData
  | 2 => s.memWrite high
  | 3 => s.delay Config.tPdHoldMin
  | _ => s.memWrite low

/-- The rows `(p, s)` of `READ_RAW`, `p` the pulse and `s` the step inside it (R145). -/
def State.readRow (p step : Nat) (s : State) : State :=
  if p < Config.dataBits then
    match step with
    | 0 => s.memWrite high
    | 1 => s.delay Config.tBitHighMin
    | 2 => s.sampleBit
    | _ => s.memWrite low
  else
    match step with
    | 0 => s.memWrite high
    | 1 => s.delay Config.tSelHigh
    | 2 => s.memWrite low
    | _ => s.delay Config.tSelLow

/-- The row of event `k` of `POWER_DOWN` (R170). -/
def State.powerDownRow (k : Nat) (s : State) : State :=
  match k with
  | 0 => s.memWrite high
  | _ => s.delay Config.tPdHoldMin

/-- The row of event `k` of command `c`; `SET_GAIN` has none (R126). -/
def State.row (c : Instr) (k : Nat) (s : State) : State :=
  match c with
  | .setup => s.setupRow k
  | .setGain _ => s
  | .isReady => s.poll
  | .readRaw => s.readRow (k / 4) (k % 4)
  | .powerDown => s.powerDownRow k
  | .powerUp => s.memWrite low

/-- After the last event of command `c` (R30, R145). -/
def State.lastRow (c : Instr) (s : State) : Result :=
  match c with
  | .setup => .next s.endSetup
  | .setGain sel => s.endSetGain sel
  | .isReady => .next s.endPoll
  | .readRaw => whenCounted s (.next s.endRead)
  | .powerDown => .next s.endPowerDown
  | .powerUp => .next s.endPowerUp

/-- One step of the sequencer; at `IDLE` there is nothing to go on with. -/
def State.advance (s : State) : Result :=
  match s.seq with
  | .idle => .next s
  | .run c k => if k < eventCount c s.pulseCount then .next (s.row c k) else s.lastRow c

/-- `n` steps of the sequencer, stopping at a fault. -/
def State.advances : Nat → State → Result
  | 0, s => .next s
  | n + 1, s =>
    match s.advance with
    | .next t => State.advances n t
    | .fault r => .fault r
    | .refused r => .refused r

end Sys2Proof.Machine
end

