-- ==== Sys2Proof/Machine/Fetch.lean ====
section
/-!
DEFINITION. The command face toward the caller (spec/30_encoding.md R92, R96; spec/60_exceptions.md R204): where the next
command word comes from, and what an idle block does with it.  The block fetches nothing itself (spec/10_state.md R29).
-/

namespace Sys2Proof.Machine

open Sys2Proof

/-- The block, idle, is offered the word `w`, and `s` is the state with the word taken: an illegal word is refused (R96),
any other is carried out to its end (R204). -/
def offer (w : CommandWord) (s : State) : Result :=
  match decode w with
  | .ok i => exec i s
  | .error _ => .refused .illegalCommand

/-- What an idle block does next: it takes the caller's next command word; with none offered it waits, and the chip may
take its turn (R225, waiting).  DEDUCED (notes/assumptions/20.md), safe. -/
def State.idleStep (s : State) : Result :=
  match s.commands with
  | [] => .next s.chipTurn
  | w :: rest => offer w { s with commands := rest }

/-- The caller's next command word is `w`, and the command face is ready to accept it (R92).  DESIGN CHOICE
(notes/assumptions/6.md), safe: the caller is a list of words. -/
def State.placeCommand (s : State) (w : CommandWord) : State :=
  { s with commands := w :: s.commands, seq := .idle }

end Sys2Proof.Machine
end

