-- ==== Sys2Proof/Machine/Step.lean ====
section
/-!
DEFINITION. One step of the machine: an idle block takes its next command and carries it out whole (spec/60_exceptions.md
R204); a block in the middle of a command, which accepts none (spec/30_encoding.md R92), goes on by one row.
DEDUCED (notes/assumptions/13.md), safe.
-/

namespace Sys2Proof.Machine

open Sys2Proof

/-- One step. -/
def step (s : State) : Host.Outcome State Fault Refusal :=
  match s.seq with
  | .idle => s.idleStep
  | .run _ _ => s.advance

/-- `s` with the command word whose bits are `w` offered next. -/
def State.withFetchWord (s : State) (nbits w : Nat) : State := s.placeCommand (tableWord nbits w)

end Sys2Proof.Machine
end

