-- ==== Sys2Proof/Machine/Construct.lean ====
section
/-!
DEFINITION. Reset is the construction of an instance (spec/70_reset_and_hazards.md R220, R221).
-/

namespace Sys2Proof.Machine

open Sys2Proof

/-- Construction with `CLOCK_PIN`, `DATA_PIN` and `INIT_SEL` as a gain number (R90, R220), before the environment `env`.
An illegal selection is `Fault(UndefinedSelection)` at reset (R221); one pin given twice is outside the spec (R7, U16).
DESIGN CHOICE (notes/assumptions/5.md), safe; so is the order, which the spec leaves open: with one pin given twice and an
illegal selection the pins are looked at first and the outcome is the refusal. -/
def State.construct (clockPin dataPin : PinId) (initSel : Nat) (env : Env) : Result :=
  if clockPin = dataPin then .refused .pinsShared
  else match pulseCountOf initSel with
    | some n => .next (State.constructed clockPin dataPin n env)
    | none => .fault .undefinedSelection

end Sys2Proof.Machine
end

