-- ==== Sys2Proof/Machine/Ports.lean ====
section
/-!
DEFINITION. The output ports of a hardware instance, read off the state (spec/30_encoding.md R90, R92).  The input ports are
the head of `commands` (`cmd_valid`, `cmd`), the answers of the environment (`dout_i`) and the arguments of construction
(`init_sel`, `rst_n`); `rsp_valid` and `rsp` are the entries of `responses`.
-/

namespace Sys2Proof.Machine

open Sys2Proof

/-- `cmd_ready`: 1 exactly when `SEQ` is `IDLE` (R92). -/
def State.cmdReady (s : State) : Bool := decide (s.seq = .idle)

/-- `sck_o`: the driven clock level (R90). -/
def State.sckO (s : State) : Level := s.sck

/-- `sck_oe`: 1 when `SCK_DIR` is `OUTPUT` (R90). -/
def State.sckOe (s : State) : Bool := decide (s.sckDir = .output)

end Sys2Proof.Machine
end

