-- ==== Sys2Proof/Machine/Product.lean ====
section
/-!
DEFINITION. Several instances, one for each chip: the product of independent machines, all pin identifiers distinct
(spec/60_exceptions.md R202).
-/

namespace Sys2Proof.Machine

open Sys2Proof

/-- The pin identifiers of several blocks. -/
def pinsOf : List State → List PinId
  | [] => []
  | s :: rest => s.clockPin :: s.dataPin :: pinsOf rest

/-- The premise of R202: every block has its own two pins. -/
def ownPins (ms : List State) : Bool := decide (pinsOf ms).Nodup

/-- One step of block number `n` among several; the others stand still.  `none` where there is no such block.  DESIGN CHOICE
(notes/assumptions/23.md), safe: when the block faults or is refused, the step of all of them ends with that block's reason. -/
def stepAt : Nat → List State → Option (Host.Outcome (List State) Fault Refusal)
  | _, [] => none
  | 0, s :: rest =>
    match step s with
    | .next t => some (.next (t :: rest))
    | .fault r => some (.fault r)
    | .refused r => some (.refused r)
  | n + 1, s :: rest =>
    match stepAt n rest with
    | some (.next ts) => some (.next (s :: ts))
    | some (.fault r) => some (.fault r)
    | some (.refused r) => some (.refused r)
    | none => none

/-- One step of block number `n` among several that each have their own pins; blocks that share a pin are refused, whichever of
them is to step (R63, R202, R238, U16, D28).  DESIGN CHOICE (notes/assumptions/23.md), safe: the pins are looked at first, and a
fault or refusal of the block that steps is what the step of all of them ends in. -/
def stepOne (n : Nat) (ms : List State) : Option (Host.Outcome (List State) Fault Refusal) :=
  if ownPins ms then stepAt n ms else some (.refused .pinsShared)

end Sys2Proof.Machine
end

