-- ==== Sys2Proof/Machine/Wire.lean ====
section
/-!
DEFINITION. What an observer reads off a trace: clock pulses (spec/00_scope.md R12), samples, counts of events and the delays
asked for (spec/41_acquisition.md R152; spec/70_reset_and_hazards.md R246), and the traces of the commands in closed form.
-/

namespace Sys2Proof.Machine

open Sys2Proof

/-- The number of clock pulses in a trace (R12), given the level driven before it and whether a pulse is under way: a 0-to-1
change of the level driven on `clock` that a 1-to-0 change follows.  A write of the level already driven changes nothing. -/
def pulsesFrom (clock : PinId) : Level → Bool → List Event → Nat
  | _, _, [] => 0
  | level, rising, .wr p v :: rest =>
    if p ≠ clock ∨ v = level then pulsesFrom clock level rising rest
    else if v = high then pulsesFrom clock high true rest
    else (if rising then 1 else 0) + pulsesFrom clock low false rest
  | level, rising, .cfg _ _ :: rest => pulsesFrom clock level rising rest
  | level, rising, .rd _ _ :: rest => pulsesFrom clock level rising rest
  | level, rising, .dly _ :: rest => pulsesFrom clock level rising rest

/-- The number of clock pulses in a trace that begins with the clock driven at `level` (R12).  DEDUCED
(notes/assumptions/21.md), safe: for a trace from reset the level is low, as P1 counts. -/
def pulses (clock : PinId) (level : Level) (trace : List Event) : Nat := pulsesFrom clock level false trace

/-- The levels read in a trace, in order. -/
def samples : List Event → List Level
  | [] => []
  | .rd _ b :: rest => b :: samples rest
  | .cfg _ _ :: rest => samples rest
  | .wr _ _ :: rest => samples rest
  | .dly _ :: rest => samples rest

/-- The number of writes of level `v` in a trace. -/
def writesOf (v : Level) : List Event → Nat
  | [] => 0
  | .wr _ u :: rest => (if u = v then 1 else 0) + writesOf v rest
  | .cfg _ _ :: rest => writesOf v rest
  | .rd _ _ :: rest => writesOf v rest
  | .dly _ :: rest => writesOf v rest

/-- The number of delays in a trace. -/
def delaysIn : List Event → Nat
  | [] => 0
  | .dly _ :: rest => 1 + delaysIn rest
  | .cfg _ _ :: rest => delaysIn rest
  | .wr _ _ :: rest => delaysIn rest
  | .rd _ _ :: rest => delaysIn rest

/-- The microseconds asked for by the delays of a trace: the least time it takes (R246). -/
def askedTime : List Event → Nat
  | [] => 0
  | .dly n :: rest => n + askedTime rest
  | .cfg _ _ :: rest => askedTime rest
  | .wr _ _ :: rest => askedTime rest
  | .rd _ _ :: rest => askedTime rest

/-- The part of that time in which the clock is driven high, for a trace that begins with it at `level` (R152). -/
def askedHigh (clock : PinId) : Level → List Event → Nat
  | _, [] => 0
  | level, .dly n :: rest => (if level = high then n else 0) + askedHigh clock level rest
  | level, .wr p v :: rest => askedHigh clock (if p = clock then v else level) rest
  | level, .cfg _ _ :: rest => askedHigh clock level rest
  | level, .rd _ _ :: rest => askedHigh clock level rest

/-- The five events of `SETUP` (R121). -/
def setupTrace (clock data : PinId) : List Event :=
  [.cfg clock .output, .cfg data .input, .wr clock high, .dly Config.tPdHoldMin, .wr clock low]

/-- The four events of a bit cycle that samples `b` (R144). -/
def bitTrace (clock data : PinId) (b : Level) : List Event :=
  [.wr clock high, .dly Config.tBitHighMin, .rd data b, .wr clock low]

/-- The events of the bit cycles that sample `bs` (R144). -/
def bitsTrace (clock data : PinId) : List Level → List Event
  | [] => []
  | b :: bs => bitTrace clock data b ++ bitsTrace clock data bs

/-- The events of `n` selection pulses (R146). -/
def selTrace (clock : PinId) : Nat → List Event
  | 0 => []
  | n + 1 => [.wr clock high, .dly Config.tSelHigh, .wr clock low, .dly Config.tSelLow] ++ selTrace clock n

/-- The trace of a read that samples `bs` and ends with `n` selection pulses (R152). -/
def readTrace (clock data : PinId) (bs : List Level) (n : Nat) : List Event :=
  bitsTrace clock data bs ++ selTrace clock n

/-- The pattern that samples spell, most significant first (R58, R151): `b_0 * 2^23 + ... + b_23`. -/
def patternValue : List Level → Nat
  | [] => 0
  | b :: bs => b.toNat * 2 ^ bs.length + patternValue bs

/-- The reading as an integer, as a function of the samples (R151): the pattern's value, less 2^24 when the first sample is
1. -/
def readingOf (bs : List Level) : Int :=
  if bs.head? = some high then (patternValue bs : Int) - 2 ^ Config.dataBits else (patternValue bs : Int)

end Sys2Proof.Machine
end

