-- ==== Sys2Proof/Machine/Caller.lean ====
section
/-!
DEFINITION. The caller's side: the pseudo-commands, macros that expand to commands (spec/30_encoding.md R106).
-/

namespace Sys2Proof.Machine

open Sys2Proof

/-- One command, or several, after another that ended with a next state. -/
def andThen (o : Result) (f : State → Result) : Result :=
  match o with
  | .next s => f s
  | .fault r => .fault r
  | .refused r => .refused r

/-- Commands one after another, each carried out to its end before the next (R204). -/
def execAll : List Instr → State → Result
  | [], s => .next s
  | i :: is, s => andThen (exec i s) (execAll is)

/-- `POWER_CYCLE` is `POWER_DOWN` then `POWER_UP` (R106, R178). -/
def powerCycle : List Instr := [.powerDown, .powerUp]

/-- `WAIT_READY`: `IS_READY` until its response is 1, given up after `polls` polls (R106).  `none` says that the poll loop had
not ended by then; it may never end. -/
def waitReady : Nat → State → Option Result
  | 0, _ => none
  | polls + 1, s =>
    match exec .isReady s with
    | .next t => if t.result = 1#32 then some (.next t) else waitReady polls t
    | .fault r => some (.fault r)
    | .refused r => some (.refused r)

/-- `SAMPLE` is `WAIT_READY` then `READ_RAW` (R106). -/
def sampleOnce (polls : Nat) (s : State) : Option Result :=
  match waitReady polls s with
  | some o => some (andThen o (exec .readRaw))
  | none => none

/-- `SELECT s` is `SET_GAIN s`, `SAMPLE`, `SAMPLE` (R106). -/
def select (polls sel : Nat) (s : State) : Option Result :=
  match exec (.setGain sel) s with
  | .next t =>
    match sampleOnce polls t with
    | some (.next u) => sampleOnce polls u
    | other => other
  | .fault r => some (.fault r)
  | .refused r => some (.refused r)

end Sys2Proof.Machine
end

