-- ==== Sys2Proof/Safety.lean ====
section
/-!
DEFINITION. What a good run is (spec/60_exceptions.md R204), the caller's contract and duties
(spec/70_reset_and_hazards.md R224, R225, R230, R240, R241), and the relations between fields of the state that every step
keeps (spec/10_state.md R23, R33; spec/42_power.md R179; spec/20_memory.md R72).
-/

namespace Sys2Proof.Machine

open Sys2Proof

/-! ## Runs -/

/-- A run: command words, each carried out to its end before the next (R204). -/
def runWords : List CommandWord → State → Result
  | [], s => .next s
  | w :: ws, s => andThen (offer w s) (runWords ws)

/-- A run that ended is good when no fault and no refusal was recorded (R204). -/
def goodRun (ws : List CommandWord) (s : State) : Bool :=
  match runWords ws s with
  | .next t => decide (t.seq = .idle)
  | .fault _ => false
  | .refused _ => false

/-! ## The caller's contract -/

/-- The caller has seen `IS_READY` answer 1 with no clock activity since (R230): the last event is a read that found the
data line low. -/
def State.polledReady (s : State) : Bool := decide (s.trace.getLast? = some (.rd s.dataPin low))

/-- What the caller's duties allow as the next command (R225): `SETUP` once, before whatever touches hardware; only the
three selections; a read only after a poll that answered 1 and with the clock low. -/
def permitted (s : State) : Instr → Bool
  | .setup => !s.setupDone
  | .setGain sel => (selectionOf sel).isSome
  | .isReady => s.setupDone
  | .readRaw => s.setupDone && decide (s.sck = low) && s.polledReady
  | .powerDown => s.setupDone
  | .powerUp => s.setupDone

/-- Commands that follow the contract, from the state `s` on (R224). -/
def followsContract : List Instr → State → Prop
  | [], _ => True
  | i :: is, s => permitted s i = true ∧ ∀ t, exec i s = .next t → followsContract is t

/-! ## What every step keeps -/

/-- The conditions of an idle block (R179, R199): before `SETUP` nothing is configured; afterwards the pins are configured
and `power` follows `SCK`; `PULSE_COUNT` holds a legal value (R23); `SEQ` is `IDLE`. -/
def blockConditions (s : State) : Prop :=
  s.seq = .idle ∧ s.pulseCount ≠ 0#2 ∧ s.clockPin ≠ s.dataPin ∧
  (s.setupDone = false → s.power = .unknown ∧ s.sckDir = .unconfigured ∧ s.doutDir = .unconfigured) ∧
  (s.setupDone = true → s.sckDir = .output ∧ s.doutDir = .input ∧
    (s.power = .active ∧ s.sck = low ∨ s.power = .down ∧ s.sck = high))

/-- Where the clock line stands inside a command, by the number `k` of its events emitted (R120, R145, R170). -/
def clockInside (c : Instr) (k : Nat) (s : State) : Prop :=
  match c with
  | .setup => k ≤ 5 ∧ s.setupDone = false ∧ s.power = .unknown ∧
      (k = 0 → s.sckDir = .unconfigured) ∧ (1 ≤ k → s.sckDir = .output) ∧
      (k ≤ 1 → s.doutDir = .unconfigured) ∧ (2 ≤ k → s.doutDir = .input) ∧
      (k = 3 ∨ k = 4 → s.sck = high) ∧ (k = 5 → s.sck = low)
  | .setGain _ => k = 0 ∧
      (s.setupDone = false → s.power = .unknown ∧ s.sckDir = .unconfigured ∧ s.doutDir = .unconfigured) ∧
      (s.setupDone = true → s.sckDir = .output ∧ s.doutDir = .input ∧
        (s.power = .active ∧ s.sck = low ∨ s.power = .down ∧ s.sck = high))
  | .isReady => k ≤ 1 ∧ s.setupDone = true ∧ s.sckDir = .output ∧ s.doutDir = .input ∧
      (s.power = .active ∧ s.sck = low ∨ s.power = .down ∧ s.sck = high)
  | .readRaw => k ≤ 96 + 4 * s.pulseCount.toNat ∧ s.setupDone = true ∧ s.sckDir = .output ∧ s.doutDir = .input ∧
      s.power = .active ∧
      (s.sck = high ↔ k % 4 = 1 ∨ k % 4 = 2 ∨ (k < 96 ∧ k % 4 = 3))
  | .powerDown => k ≤ 2 ∧ s.setupDone = true ∧ s.sckDir = .output ∧ s.doutDir = .input ∧ s.power ≠ .unknown ∧
      (1 ≤ k → s.sck = high)
  | .powerUp => k ≤ 1 ∧ s.setupDone = true ∧ s.sckDir = .output ∧ s.doutDir = .input ∧ s.power ≠ .unknown ∧
      (k = 1 → s.sck = low)

/-- The conditions of the block at any step of the sequencer: those of an idle block, or those inside a command. -/
def sequencerConditions (s : State) : Prop :=
  match s.seq with
  | .idle => blockConditions s
  | .run c k => s.pulseCount ≠ 0#2 ∧ s.clockPin ≠ s.dataPin ∧ clockInside c k s

/-- The conditions of a reference chip before `SETUP` has brought it into a known state: none (R222).  Afterwards, between
commands: it sleeps exactly when the clock is driven high (R171, R178), and a synchronised chip that is on drives the data
line low exactly when a conversion is on offer and not begun (R72), its count a whole frame or none (R74, R79). -/
def chipConditions (s : State) : Prop :=
  ∀ c, s.env.chip = some c → s.setupDone = true →
    (s.sck = high → c.power = .asleep ∧ c.ready = false ∧ c.highFor ≠ none) ∧
    (s.sck = low → c.power = .on ∧ c.highFor = none ∧
      (c.desync = false → (c.ready = true ∧ c.cnt = 0 ∧ c.dout = low) ∨
        (c.ready = false ∧ c.cnt ∈ [0, 25, 26, 27] ∧ c.dout = high)))

/-- The reference chip and the block count pulses from the same place (R60): whenever `SETUP` is done the chip is not in
`DESYNC`. -/
def synchronised (s : State) : Prop :=
  ∀ c, s.env.chip = some c → s.setupDone = true → c.desync = false

/-- What the caller learned from its last poll is still true (R230): if that poll answered 1, and the clock has been low and the
chip synchronised, a conversion is on offer and none of it shifted out. -/
def pollTells (s : State) : Prop :=
  ∀ c, s.env.chip = some c → s.setupDone = true → s.sck = low → c.desync = false → s.polledReady = true →
    c.ready = true ∧ c.cnt = 0

end Sys2Proof.Machine
end

