-- ==== Sys2Proof/Certificates/Slice0/Obligations.lean ====
section
/-!
DEFINITION. The statements for the provers, from the numbered rules of spec/.  Where a next state is written as a record,
`{ s with ... }`, every field not named is unchanged: that is the command's frame.  `e` stands for the environment
afterwards, of which each statement says what it says.
-/

open Sys2Proof Sys2Proof.Machine

/-! ## Command words -/

/-- A word of each command, written out from the fields of R91 and R94, decodes to it. -/
def Obligations.CommandWordsDecode : Prop :=
  decode 0b0001000000000000#16 = .ok .setup ∧ decode 0b0010000010000000#16 = .ok (.setGain 128) ∧
  decode 0b0010000000100000#16 = .ok (.setGain 32) ∧ decode 0b0010000001000000#16 = .ok (.setGain 64) ∧
  decode 0b0011000000000000#16 = .ok .isReady ∧ decode 0b0100000000000000#16 = .ok .readRaw ∧
  decode 0b0101000000000000#16 = .ok .powerDown ∧ decode 0b0110000000000000#16 = .ok .powerUp

/-- R98: the decoder, field by field, and that it and the encoder are inverse to each other on all legal words. -/
def Obligations.DecodeAndEncodeAgree : Prop :=
  (∀ w, rsvField w ≠ 0#4 → ∃ r, decode w = .error r) ∧
  (∀ w, rsvField w = 0#4 → opField w = 2#4 → decode w = .ok (.setGain (imm8Field w).toNat)) ∧
  (∀ w, rsvField w = 0#4 → opField w ≠ 2#4 → imm8Field w ≠ 0#8 → ∃ r, decode w = .error r) ∧
  (∀ w, rsvField w = 0#4 → imm8Field w = 0#8 →
    (opField w = 1#4 → decode w = .ok .setup) ∧ (opField w = 3#4 → decode w = .ok .isReady) ∧
    (opField w = 4#4 → decode w = .ok .readRaw) ∧ (opField w = 5#4 → decode w = .ok .powerDown) ∧
    (opField w = 6#4 → decode w = .ok .powerUp) ∧
    (opField w ∉ [1#4, 2#4, 3#4, 4#4, 5#4, 6#4] → ∃ r, decode w = .error r)) ∧
  (∀ i : Instr, i.wellFormed = true → decode (encode i) = .ok i) ∧
  (∀ w i, decode w = .ok i → i.wellFormed = true ∧ encode i = w)

/-- R96: exactly the illegal words end a step of an idle block with `Refused(IllegalCommand)`, an outcome that carries no state
and so no change and no event. -/
def Obligations.IllegalWordsRefused : Prop :=
  ∀ (s : State) (w : CommandWord) (rest : List CommandWord), s.seq = .idle → s.commands = w :: rest →
    (step s = .refused .illegalCommand ↔
      opField w = 0#4 ∨ 7 ≤ (opField w).toNat ∨ rsvField w ≠ 0#4 ∨ (opField w ≠ 2#4 ∧ imm8Field w ≠ 0#8))

/-! ## Steps -/

/-- A step of an idle block carries the decoded command out, on the state with the word taken.  That the words are a list and
that one step carries the whole command out is the model's choice (notes/assumptions/6.md, 13.md); R145's rows are
`ReadRowsFollowTable`, and `ExecIsTheSequencer` says that both agree. -/
def Obligations.StepRunsDecodedCommand : Prop :=
  ∀ (s : State) (w : CommandWord) (rest : List CommandWord) (i : Instr), s.seq = .idle → s.commands = w :: rest →
    decode w = .ok i → step s = exec i { s with commands := rest }

/-- The word placed for the next step is the word the next step runs. -/
def Obligations.PlacedWordRuns : Prop :=
  ∀ (s : State) (w : Nat) (i : Instr), decodeTableWord 16 w = some i →
    step (s.withFetchWord 16 w) = exec i { s with seq := .idle }

/-- With no command offered an idle block waits: nothing of the block changes, and under the free oracle nothing at all. -/
def Obligations.IdleBlockWaits : Prop :=
  ∀ s : State, s.seq = .idle → s.commands = [] →
    ∃ e, step s = .next { s with env := e } ∧ (s.env.chip = none → e = s.env)

/-- R92: while a command is in progress `cmd_ready` is 0, no command is accepted, and the caller's words stay where they are. -/
def Obligations.BusyBlockAcceptsNothing : Prop :=
  ∀ (s : State) (c : Instr) (k : Nat), s.seq = .run c k →
    s.cmdReady = false ∧ (∀ i, exec i s = .refused .notAccepted) ∧
    (∀ t, step s = .next t → t.commands = s.commands)

/-- R30: a step inside a command emits one event and advances `k` by one; after the last event the command ends. -/
def Obligations.SequencerAdvancesByOneEvent : Prop :=
  ∀ (s : State) (c : Instr) (k : Nat), s.seq = .run c k →
    (k < eventCount c s.pulseCount → ∃ t ev, step s = .next t ∧ t.seq = .run c (k + 1) ∧ t.trace = s.trace ++ [ev] ∧
      t.pulseCount = s.pulseCount) ∧
    (eventCount c s.pulseCount ≤ k → ∀ t, step s = .next t → t.seq = .idle ∧ t.trace = s.trace)

/-- R145: the sequencer table of `READ_RAW`, row by row.  Here `4 * p + j` is the position `(p, j)` and `n` is
`PULSE_COUNT`.  The bit of the SAMPLE row is the answer of the environment after its turn. -/
def Obligations.ReadRowsFollowTable : Prop :=
  ∀ (s : State) (p : Nat),
    (s.seq = .run .readRaw (4 * p) → p < 24 + s.pulseCount.toNat →
      ∃ e, step s = .next { s with sck := high, trace := s.trace ++ [.wr s.clockPin high],
                                   seq := .run .readRaw (4 * p + 1), env := e }) ∧
    (s.seq = .run .readRaw (4 * p + 1) → p < 24 →
      ∃ e, step s = .next { s with trace := s.trace ++ [.dly Config.tBitHighMin],
                                   seq := .run .readRaw (4 * p + 2), env := e }) ∧
    (s.seq = .run .readRaw (4 * p + 2) → p < 24 →
      step s = .next { s with acc := s.acc.extractLsb' 0 23 ++ (s.env.turn s.midFrame).sample.1,
                              trace := s.trace ++ [.rd s.dataPin (s.env.turn s.midFrame).sample.1],
                              seq := .run .readRaw (4 * p + 3),
                              env := (s.env.turn s.midFrame).sample.2 }) ∧
    (s.seq = .run .readRaw (4 * p + 3) → p < 24 →
      ∃ e, step s = .next { s with sck := low, trace := s.trace ++ [.wr s.clockPin low],
                                   seq := .run .readRaw (4 * (p + 1)), env := e }) ∧
    (s.seq = .run .readRaw (4 * p + 1) → 24 ≤ p → p < 24 + s.pulseCount.toNat →
      ∃ e, step s = .next { s with trace := s.trace ++ [.dly Config.tSelHigh],
                                   seq := .run .readRaw (4 * p + 2), env := e }) ∧
    (s.seq = .run .readRaw (4 * p + 2) → 24 ≤ p → p < 24 + s.pulseCount.toNat →
      ∃ e, step s = .next { s with sck := low, trace := s.trace ++ [.wr s.clockPin low],
                                   seq := .run .readRaw (4 * p + 3), env := e }) ∧
    (s.seq = .run .readRaw (4 * p + 3) → 24 ≤ p → p < 24 + s.pulseCount.toNat →
      ∃ e, step s = .next { s with trace := s.trace ++ [.dly Config.tSelLow],
                                   seq := .run .readRaw (4 * (p + 1)), env := e }) ∧
    (s.seq = .run .readRaw (4 * p) → p = 24 + s.pulseCount.toNat → s.pulseCount ≠ 0#2 →
      step s = .next { s with result := s.acc.signExtend 32, responses := s.responses ++ [s.acc.signExtend 32],
                              seq := .idle })

/-- A command carried out at once is the same as the sequencer carrying it out row by row, `READ_RAW`'s 100, 104 or 108 rows
included (R30, R142, R145). -/
def Obligations.ExecIsTheSequencer : Prop :=
  ∀ (i : Instr) (s t : State), exec i s = .next t →
    State.advances (eventCount i s.pulseCount + 1) (s.accept i) = .next t

/-! ## Reset -/

/-- R220, R221, R37: construction with a legal selection gives every element its value, with an illegal one the fault. -/
def Obligations.ConstructionFollowsSelection : Prop :=
  ∀ (clock data : PinId) (env : Env), clock ≠ data →
    (∀ sel n, (sel, n) ∈ [(128, 1#2), (32, 2#2), (64, 3#2)] → ∃ t, State.construct clock data sel env = .next t ∧
      t.clockPin = clock ∧ t.dataPin = data ∧ t.pulseCount = n ∧ t.sckDir = .unconfigured ∧ t.doutDir = .unconfigured ∧
      t.seq = .idle ∧ t.setupDone = false ∧ t.power = .unknown ∧ t.trace = [] ∧ t.sckOe = false) ∧
    (∀ sel, sel ≠ 128 → sel ≠ 32 → sel ≠ 64 → State.construct clock data sel env = .fault .undefinedSelection)

/-- The conditions every step keeps hold after every construction with a legal selection, before every environment. -/
def Obligations.ConstructionMeetsConditions : Prop :=
  ∀ (clock data : PinId) (sel : Nat) (env : Env) (t : State), State.construct clock data sel env = .next t →
    blockConditions t ∧ chipConditions t ∧ pollTells t ∧ synchronised t

/-- They hold at the model's reset state, which is the construction with the default selection, two distinct pins nothing more is
known of, and the free oracle (notes/assumptions/3.md, 5.md: the model's choice). -/
def Obligations.ResetMeetsConditions : Prop :=
  State.construct Config.clockPin Config.dataPin 128 Env.free = .next State.reset ∧
  blockConditions State.reset ∧ sequencerConditions State.reset ∧ chipConditions State.reset ∧ pollTells State.reset ∧
    synchronised State.reset

/-! ## SETUP -/

/-- R121: state and trace after `SETUP`, its one long high excursion, and what a reference chip is then. -/
def Obligations.SetupResult : Prop :=
  ∀ s : State, s.seq = .idle → s.setupDone = false →
    (∃ e, exec .setup s = .next { s with sckDir := .output, doutDir := .input, sck := low, power := .active,
                                         setupDone := true,
                                         trace := s.trace ++ [.cfg s.clockPin .output, .cfg s.dataPin .input,
                                           .wr s.clockPin high, .dly Config.tPdHoldMin, .wr s.clockPin low],
                                         env := e } ∧
      (s.env.chip = none → e = s.env) ∧
      (∀ c, s.env.chip = some c → ∃ d, e.chip = some d ∧ d.power = .on ∧ d.ready = false ∧ d.sel = .a128 ∧
        d.cnt = 0 ∧ d.dout = high ∧ d.desync = false ∧ d.highFor = none)) ∧
    pulses s.clockPin low (setupTrace s.clockPin s.dataPin) = 1 ∧
    askedHigh s.clockPin low (setupTrace s.clockPin s.dataPin) = Config.tPdHoldMin

/-- R122: `SETUP` exactly once, and before any command that touches hardware; `SET_GAIN` may come before it. -/
def Obligations.SetupOnceAndFirst : Prop :=
  ∀ s : State, s.seq = .idle →
    (s.setupDone = true → exec .setup s = .refused .setupRepeated) ∧
    (s.setupDone = false → exec .isReady s = .refused .notSetUp ∧ exec .readRaw s = .refused .notSetUp ∧
      exec .powerDown s = .refused .notSetUp ∧ exec .powerUp s = .refused .notSetUp ∧
      exec .setup s ≠ .refused .setupRepeated ∧
      exec (.setGain 128) s = .next { s with pulseCount := 1#2 })

/-- R123(b): carried out a second time, the body of `SETUP` would emit the same five events and end in the same state. -/
def Obligations.SecondSetupBodySame : Prop :=
  ∀ s : State, ∃ e, s.setupBody.setupBody =
    { s.setupBody with trace := s.setupBody.trace ++ setupTrace s.clockPin s.dataPin, env := e }

/-! ## SET_GAIN -/

/-- R126: what `SET_GAIN` does with each selection: `PULSE_COUNT` only, no event, no response, in every idle state. -/
def Obligations.SetGainResult : Prop :=
  ∀ s : State, s.seq = .idle →
    exec (.setGain 128) s = .next { s with pulseCount := 1#2 } ∧
    exec (.setGain 32) s = .next { s with pulseCount := 2#2 } ∧
    exec (.setGain 64) s = .next { s with pulseCount := 3#2 } ∧
    encode (.setGain 128) = 0x2080#16 ∧ encode (.setGain 32) = 0x2020#16 ∧ encode (.setGain 64) = 0x2040#16

/-- R128: every other selection ends with the fault, and the fault is kept whatever commands were to follow. -/
def Obligations.SetGainIllegalSelection : Prop :=
  ∀ (s : State) (sel : Nat), s.seq = .idle → sel ≠ 128 → sel ≠ 32 → sel ≠ 64 →
    exec (.setGain sel) s = .fault .undefinedSelection ∧
    ∀ is : List Instr, execAll (.setGain sel :: is) s = .fault .undefinedSelection

/-- R129(a): the selection already held changes nothing at all. -/
def Obligations.SetGainHeldValue : Prop :=
  ∀ (s : State) (sel : Selection), s.seq = .idle → s.pulseCount = pulsesOf sel →
    exec (.setGain (gainOf sel)) s = .next s

/-- R130: `SET_GAIN` then `READ_RAW`, as command words: the read appends 1, 2 or 3 selection pulses, 25, 26 or 27 pulses in
all. -/
def Obligations.SetGainThenReadPulses : Prop :=
  ∀ (s : State) (w : CommandWord) (n : Nat), s.seq = .idle → s.setupDone = true → s.sck = low →
    (w, n) ∈ [(0x2080#16, 1), (0x2020#16, 2), (0x2040#16, 3)] →
    ∃ t u bs, runWords [w] s = .next t ∧ t.pulseCount.toNat = n ∧ t.trace = s.trace ∧
      runWords [w, 0x4000#16] s = .next u ∧ bs.length = 24 ∧
      u.trace = s.trace ++ bitsTrace s.clockPin s.dataPin bs ++ selTrace s.clockPin n ∧
      pulses s.clockPin low (bitsTrace s.clockPin s.dataPin bs ++ selTrace s.clockPin n) = 24 + n

/-- R23: over any commands, `PULSE_COUNT` is that of the last selection applied. -/
def Obligations.PulseCountIsLastSelection : Prop :=
  ∀ (is : List Instr) (s t : State), execAll is s = .next t →
    t.pulseCount = is.foldl (fun n i => match i with
      | .setGain sel => (pulseCountOf sel).getD n
      | _ => n) s.pulseCount ∧
    (s.pulseCount ≠ 0#2 → t.pulseCount ≠ 0#2)

/-! ## IS_READY -/

/-- R140: one sample, the answer its negation, nothing stored; who answers, by environment (R57).  `c` is the chip after its turn
before the sample, whatever conversions are scheduled. -/
def Obligations.IsReadyResult : Prop :=
  ∀ s : State, s.seq = .idle → s.setupDone = true →
    ∃ b e, exec .isReady s = .next { s with
        result := (if b = low then 1#32 else 0#32)
        responses := s.responses ++ [if b = low then 1#32 else 0#32]
        trace := s.trace ++ [.rd s.dataPin b]
        env := e } ∧
      (s.env.chip = none → ∀ a rest, s.env.answers = a :: rest → b = a ∧ e = { s.env with answers := rest }) ∧
      (∀ c, (s.env.turn false).chip = some c → c.power = .on → c.desync = false → c.highFor = none →
        b = c.dout ∧ e = s.env.turn false) ∧
      (∀ c, (s.env.turn false).chip = some c → (c.power = .asleep ∨ c.desync = true) →
        ∀ a rest, s.env.answers = a :: rest → b = a ∧ e = { s.env.turn false with answers := rest })

/-! ## READ_RAW -/

/-- R141, R144, R151: what `READ_RAW` leaves, before any environment: 24 samples and everything as a function of them. -/
def Obligations.ReadRawResult : Prop :=
  ∀ s : State, s.seq = .idle → s.setupDone = true → s.sck = low → s.pulseCount ≠ 0#2 →
    ∃ bs e, bs.length = 24 ∧
      exec .readRaw s = .next { s with
        acc := BitVec.ofNat 24 (patternValue bs)
        result := BitVec.ofInt 32 (readingOf bs)
        responses := s.responses ++ [BitVec.ofInt 32 (readingOf bs)]
        trace := s.trace ++ readTrace s.clockPin s.dataPin bs s.pulseCount.toNat
        env := e } ∧
      (s.env.chip = none → ∀ as rest, as.length = 24 → s.env.answers = as ++ rest →
        bs = as ∧ e = { s.env with answers := rest })

/-- R151: the response is the reading the samples spell, a bijection between samples and readings, and depends on nothing
else. -/
def Obligations.ReadingIsFunctionOfSamples : Prop :=
  (∀ (s : State) (bs rest : List Level), s.seq = .idle → s.setupDone = true → s.sck = low → s.pulseCount ≠ 0#2 →
    s.env.chip = none → bs.length = 24 → s.env.answers = bs ++ rest →
    ∃ t, exec .readRaw s = .next t ∧ t.result.toInt = readingOf bs ∧ samples (t.trace.drop s.trace.length) = bs) ∧
  (∀ bs : List Level, bs.length = 24 → Config.rawMin ≤ readingOf bs ∧ readingOf bs ≤ Config.rawMax) ∧
  (∀ as bs : List Level, as.length = 24 → bs.length = 24 → readingOf as = readingOf bs → as = bs) ∧
  (∀ z : Int, Config.rawMin ≤ z → z ≤ Config.rawMax → ∃ bs : List Level, bs.length = 24 ∧ readingOf bs = z)

/-- R144: after bit cycle `i` of a read, bits `i` down to 0 of `ACC` hold the samples so far, the first one highest; after
24 cycles bit `23 - i` is sample `i`. -/
def Obligations.BitCyclesFillAccumulator : Prop :=
  ∀ (s : State) (n : Nat), n ≤ 24 →
    ∃ bs : List Level, bs.length = n ∧
      (State.bitCycles n s).trace = s.trace ++ bitsTrace s.clockPin s.dataPin bs ∧
      ∀ i, (h : i < bs.length) → (State.bitCycles n s).acc.getLsbD (n - 1 - i) = bs[i].getLsbD 0

/-- R152: the trace of a read in closed form, and its counts. -/
def Obligations.ReadTraceClosedForm : Prop :=
  ∀ s : State, s.seq = .idle → s.setupDone = true → s.sck = low → s.pulseCount ≠ 0#2 →
    ∃ t bs, exec .readRaw s = .next t ∧ bs.length = 24 ∧
      ∃ tail, t.trace = s.trace ++ tail ∧ tail = readTrace s.clockPin s.dataPin bs s.pulseCount.toNat ∧
        tail.length = 96 + 4 * s.pulseCount.toNat ∧
        writesOf high tail = 24 + s.pulseCount.toNat ∧ writesOf low tail = 24 + s.pulseCount.toNat ∧
        samples tail = bs ∧ delaysIn tail = 24 + 2 * s.pulseCount.toNat ∧
        askedHigh s.clockPin low tail = 24 * Config.tBitHighMin + s.pulseCount.toNat * Config.tSelHigh

/-- R147: the pulse count of a read is 25, 26 or 27; 24 samples, one inside each of the first 24 pulses; the clock ends
low. -/
def Obligations.ReadPulseCount : Prop :=
  ∀ s : State, s.seq = .idle → s.setupDone = true → s.sck = low → s.pulseCount ≠ 0#2 →
    ∃ t bs, exec .readRaw s = .next t ∧ t.sck = low ∧ bs.length = 24 ∧
      t.trace = s.trace ++ bitsTrace s.clockPin s.dataPin bs ++ selTrace s.clockPin s.pulseCount.toNat ∧
      pulses s.clockPin low (t.trace.drop s.trace.length) = 24 + s.pulseCount.toNat ∧
      24 + s.pulseCount.toNat ∈ [25, 26, 27] ∧
      samples (t.trace.drop s.trace.length) = bs ∧
      (∀ b ∈ bs, pulses s.clockPin low (bitTrace s.clockPin s.dataPin b) = 1)

/-- R148: the sign extension, and that `READ_RAW` hands it to the caller. -/
def Obligations.SignExtension : Prop :=
  (∀ a : Pattern, widen a = (a ++ 0#8).sshiftRight 8 ∧ widen a = a.signExtend 32 ∧
    (a.getLsbD 23 = false → (widen a).toInt = a.toNat) ∧
    (a.getLsbD 23 = true → (widen a).toInt = (a.toNat : Int) - 2 ^ 24) ∧
    Config.rawMin ≤ (widen a).toInt ∧ (widen a).toInt ≤ Config.rawMax ∧
    (∀ i, 23 ≤ i → i < 32 → (widen a).getLsbD i = a.getLsbD 23)) ∧
  (∀ s t : State, exec .readRaw s = .next t → t.result = widen t.acc ∧ t.responses = s.responses ++ [widen t.acc])

/-- R149: every division by 256 gives the same as the arithmetic shift, for every pattern. -/
def Obligations.DivisionsAgreeWithShift : Prop :=
  ∀ a : Pattern, (256 : Int) ∣ (a ++ 0#8 : BitVec 32).toInt ∧
    (a ++ 0#8 : BitVec 32).toInt.tdiv 256 = (widen a).toInt ∧ (a ++ 0#8 : BitVec 32).toInt.fdiv 256 = (widen a).toInt

/-- What stops `READ_RAW` (R153), and that nothing else does, whatever the data line answers: the read then has R151's value of
its 24 samples, given for the free oracle and for a reference chip that is not ready (R153(d)).  Beside the rule: with the clock
high on entry the same body would emit `23 + n` pulses, and its first falling edge would wake a chip asleep.  The model's reading
(notes/assumptions/11.md): the pattern 0 of `PULSE_COUNT` is the fault, and the text beside R153(b) is `State.readRawBody`. -/
def Obligations.ReadRawStops : Prop :=
  ∀ s : State, s.seq = .idle →
    (s.setupDone = false → exec .readRaw s = .refused .notSetUp) ∧
    (s.setupDone = true → s.sck = high → exec .readRaw s = .refused .clockNotLow) ∧
    (s.setupDone = true → s.sck = low → s.pulseCount = 0#2 → exec .readRaw s = .fault .undefinedSelection) ∧
    (s.setupDone = true → s.sck = low → s.pulseCount ≠ 0#2 →
      (∃ t bs, exec .readRaw s = .next t ∧ bs.length = 24 ∧ t.result.toInt = readingOf bs ∧
        t.trace = s.trace ++ readTrace s.clockPin s.dataPin bs s.pulseCount.toNat) ∧
      ∀ bs rest : List Level, bs.length = 24 → s.env.answers = bs ++ rest →
        (s.env.chip = none → ∃ t, exec .readRaw s = .next t ∧ t.result.toInt = readingOf bs) ∧
        (∀ c, s.sckDir = .output → (s.env.turn false).chip = some c → c.power = .on → c.highFor = none →
          c.ready = false → ∃ t, exec .readRaw s = .next t ∧ t.result.toInt = readingOf bs)) ∧
    (s.sck = high → s.pulseCount ≠ 0#2 →
      pulses s.clockPin high (s.readRawBody.trace.drop s.trace.length) = 23 + s.pulseCount.toNat ∧
      (s.sckDir = .output → ∀ c, s.env.chip = some c → c.power = .asleep → c.highFor ≠ none →
        ∃ d, (s.accept .readRaw).bitCycle.env.chip = some d ∧ d.power = .on ∧ d.sel = .a128))

/-- R154, R156: a data line stuck high reads -1, stuck low 0; only the first sample set reads the least value, only the last
reads 1. -/
def Obligations.StuckDataLineReadings : Prop :=
  ∀ (s : State) (rest : List Level), s.seq = .idle → s.setupDone = true → s.sck = low → s.pulseCount ≠ 0#2 →
    s.env.chip = none →
    (s.env.answers = List.replicate 24 high ++ rest → ∃ t, exec .readRaw s = .next t ∧ t.result.toInt = -1) ∧
    (s.env.answers = List.replicate 24 low ++ rest → ∃ t, exec .readRaw s = .next t ∧ t.result.toInt = 0) ∧
    (s.env.answers = high :: List.replicate 23 low ++ rest →
      ∃ t, exec .readRaw s = .next t ∧ t.result.toInt = -8388608) ∧
    (s.env.answers = List.replicate 23 low ++ high :: rest → ∃ t, exec .readRaw s = .next t ∧ t.result.toInt = 1)

/-- R151: the response depends on the samples alone: not on `PULSE_COUNT`, on earlier reads, on the power state or on
anything else of the state. -/
def Obligations.ResponseDependsOnSamplesOnly : Prop :=
  ∀ s s' t t' : State, exec .readRaw s = .next t → exec .readRaw s' = .next t' →
    samples (t.trace.drop s.trace.length) = samples (t'.trace.drop s'.trace.length) → t.result = t'.result

/-! ## POWER_DOWN and POWER_UP -/

/-- R170, R171: state and trace after `POWER_DOWN`; a reference chip is then asleep. -/
def Obligations.PowerDownResult : Prop :=
  ∀ s : State, s.seq = .idle → s.setupDone = true →
    ∃ e, exec .powerDown s = .next { s with sck := high, power := .down,
                                            trace := s.trace ++ [.wr s.clockPin high, .dly Config.tPdHoldMin],
                                            env := e } ∧
      (s.env.chip = none → e = s.env) ∧
      (s.sckDir = .output → ∀ c, s.env.chip = some c → ∃ d, e.chip = some d ∧ d.power = .asleep) ∧
      Config.tPdThresh < Config.tPdHoldMin

/-- R174, R175, R177: state and trace after `POWER_UP`; it makes no edge when the line is low already (the chip then has its
turn and nothing else), and wakes and resets a chip asleep with the line high. -/
def Obligations.PowerUpResult : Prop :=
  ∀ s : State, s.seq = .idle → s.setupDone = true →
    ∃ e, exec .powerUp s = .next { s with sck := low, power := .active,
                                          trace := s.trace ++ [.wr s.clockPin low], env := e } ∧
      (s.env.chip = none → e = s.env) ∧
      (s.sckDir = .output → ∀ c, s.env.chip = some c → c.power = .asleep → c.highFor ≠ none →
        ∃ d, e.chip = some d ∧ d.power = .on ∧ d.sel = .a128 ∧ d.cnt = 0 ∧ d.ready = false ∧ d.dout = high ∧
          d.desync = false) ∧
      (∀ c, (s.env.turn false).chip = some c → c.highFor = none → e = s.env.turn false)

/-- R176, R178: a power cycle leaves the chip on, not ready, at A128 with its counter at 0, and the block as before but for
`SCK` and `power`: `PULSE_COUNT` stays and is not re-applied. -/
def Obligations.PowerCycleForgetsSelection : Prop :=
  ∀ s : State, s.seq = .idle → s.setupDone = true →
    ∃ e, execAll powerCycle s = .next { s with
        sck := low
        power := .active
        trace := s.trace ++ [.wr s.clockPin high, .dly Config.tPdHoldMin, .wr s.clockPin low]
        env := e } ∧
      (s.env.chip = none → e = s.env) ∧
      (s.sckDir = .output → ∀ c, s.env.chip = some c → ∃ d, e.chip = some d ∧ d.power = .on ∧ d.ready = false ∧
        d.sel = .a128 ∧ d.cnt = 0 ∧ d.desync = false)

/-- R179: the power state machine, row by row, over the conditions that every step keeps. -/
def Obligations.PowerStateMachine : Prop :=
  ∀ s : State, blockConditions s →
    (s.power = .unknown →
      (∃ t, exec .setup s = .next t ∧ t.power = .active ∧ t.sck = low) ∧
      (∀ sel : Selection, ∃ t, exec (.setGain (gainOf sel)) s = .next t ∧ t.power = .unknown ∧ t.sck = s.sck) ∧
      (∀ i ∈ [Instr.isReady, .readRaw, .powerDown, .powerUp], exec i s = .refused .notSetUp)) ∧
    (s.power = .active →
      (∃ t, exec .powerDown s = .next t ∧ t.power = .down ∧ t.sck = high) ∧
      (∃ t, exec .powerUp s = .next t ∧ t.power = .active ∧ t.sck = low) ∧
      (∀ sel : Selection, ∃ t, exec (.setGain (gainOf sel)) s = .next t ∧ t.power = .active ∧ t.sck = low) ∧
      (∀ i ∈ [Instr.isReady, .readRaw], ∃ t, exec i s = .next t ∧ t.power = .active ∧ t.sck = low) ∧
      exec .setup s = .refused .setupRepeated) ∧
    (s.power = .down →
      (∃ t, exec .powerUp s = .next t ∧ t.power = .active ∧ t.sck = low) ∧
      (∃ t, exec .powerDown s = .next t ∧ t.power = .down ∧ t.sck = high) ∧
      (∀ sel : Selection, ∃ t, exec (.setGain (gainOf sel)) s = .next t ∧ t.power = .down ∧ t.sck = high) ∧
      (∃ t, exec .isReady s = .next t ∧ t.power = .down ∧ t.sck = high) ∧
      exec .readRaw s = .refused .clockNotLow ∧
      exec .setup s = .refused .setupRepeated) ∧
    (s.setupDone = true → (s.power = .down ↔ s.sck = high))

/-! ## Every command -/

/-- When a command ends with a next state: exactly then (R122, R126, R153, R195). -/
def Obligations.CommandCompletesExactlyWhen : Prop :=
  ∀ (i : Instr) (s : State), (∃ t, exec i s = .next t) ↔ s.seq = .idle ∧
    match i with
    | .setup => s.setupDone = false
    | .setGain sel => sel = 128 ∨ sel = 32 ∨ sel = 64
    | .isReady => s.setupDone = true
    | .readRaw => s.setupDone = true ∧ s.sck = low ∧ s.pulseCount ≠ 0#2
    | .powerDown => s.setupDone = true
    | .powerUp => s.setupDone = true

/-- R195: the order in which the reasons are checked, and that one is reported. -/
def Obligations.ChecksInOrder : Prop :=
  (∀ (s : State) (w : CommandWord) (rest : List CommandWord) (r : DecodeError), s.seq = .idle → s.commands = w :: rest →
    decode w = .error r → step s = .refused .illegalCommand) ∧
  (∀ (i : Instr) (s : State), s.seq = .idle →
    (s.setupDone = false → i ∈ [Instr.isReady, .readRaw, .powerDown, .powerUp] → exec i s = .refused .notSetUp) ∧
    (s.setupDone = true → i = .setup → exec i s = .refused .setupRepeated) ∧
    (s.setupDone = true → i = .readRaw → s.sck = high → exec i s = .refused .clockNotLow) ∧
    (s.setupDone = true → i = .readRaw → s.sck = low → s.pulseCount = 0#2 → exec i s = .fault .undefinedSelection))

/-- The frame of every command: what each leaves unchanged, whatever the state it starts from (R20, R21, R23, R26, R27, R28,
R33, R34). -/
def Obligations.FrameOfEveryCommand : Prop :=
  ∀ (i : Instr) (s t : State), exec i s = .next t →
    t.clockPin = s.clockPin ∧ t.dataPin = s.dataPin ∧ t.commands = s.commands ∧ t.seq = s.seq ∧
    ((∀ sel, i ≠ .setGain sel) → t.pulseCount = s.pulseCount) ∧
    (i ≠ .setup → t.sckDir = s.sckDir ∧ t.doutDir = s.doutDir ∧ t.setupDone = s.setupDone) ∧
    (i ≠ .readRaw → t.acc = s.acc) ∧
    (i ≠ .readRaw → i ≠ .isReady → t.result = s.result ∧ t.responses = s.responses) ∧
    (i ≠ .setup → i ≠ .powerDown → i ≠ .powerUp → t.power = s.power ∧ t.sck = s.sck) ∧
    (∀ sel, i = .setGain sel → t.trace = s.trace ∧ t.env = s.env)

/-- R35, R61, R65: a command appends to the trace and changes none of it, and the number of its events depends on the command
and on `PULSE_COUNT` alone. -/
def Obligations.EventsAreAppended : Prop :=
  ∀ (i : Instr) (s t : State), exec i s = .next t →
    ∃ tail, t.trace = s.trace ++ tail ∧ tail.length = eventCount i s.pulseCount

/-- R246: the least duration of each command, from the delays it asks for. -/
def Obligations.LeastDurations : Prop :=
  ∀ (i : Instr) (s t : State), exec i s = .next t →
    askedTime (t.trace.drop s.trace.length) =
      match i with
      | .setGain _ => 0
      | .isReady => 0
      | .powerUp => 0
      | .powerDown => 100
      | .setup => 100
      | .readRaw => 48 + s.pulseCount.toNat * (Config.tSelHigh + Config.tSelLow)

/-! ## What every step keeps -/

/-- The conditions of an idle block (R23, R179, R199) are kept by every step. -/
def Obligations.StepKeepsBlockConditions : Prop :=
  ∀ s t : State, blockConditions s → step s = .next t → blockConditions t

/-- The conditions inside a command too, at every row of the sequencer. -/
def Obligations.StepKeepsSequencerConditions : Prop :=
  ∀ s t : State, sequencerConditions s → step s = .next t → sequencerConditions t

/-- The conditions of the reference chip (R72, R74, R77, R78), for every schedule of its conversions. -/
def Obligations.StepKeepsChipConditions : Prop :=
  ∀ s t : State, blockConditions s → chipConditions s → step s = .next t → chipConditions t

/-- A caller that follows the contract, and one that waits, never desynchronises the reference chip (R223, R230), for every
schedule. -/
def Obligations.ContractKeepsSynchronised : Prop :=
  ∀ s : State, blockConditions s → chipConditions s → pollTells s → synchronised s →
    (∀ i t, permitted s i = true → exec i s = .next t → pollTells t ∧ synchronised t) ∧
    (∀ t, s.commands = [] → step s = .next t → pollTells t ∧ synchronised t)

/-- A run that follows the contract is good: no fault, no refusal (R204, R224, R225). -/
def Obligations.ContractRunIsGood : Prop :=
  ∀ (is : List Instr) (s : State), blockConditions s → followsContract is s → goodRun (is.map encode) s = true

/-! ## The block and the reference chip together -/

/-- R73, R74, R101: a read that the contract permits returns the conversion on offer when its first pulse rises, sign-extended,
for every schedule of the chip's conversions. -/
def Obligations.ContractReadReturnsConversion : Prop :=
  ∀ (s : State) (c : Chip), blockConditions s → chipConditions s → pollTells s → synchronised s →
    permitted s .readRaw = true → (s.env.turn false).chip = some c →
    ∃ t, exec .readRaw s = .next t ∧ t.result = widen c.data

/-- R231, R127: the selection lags by one read, for every schedule of the chip's conversions.  The read returns the conversion on
offer, made under the chip's selection of then; its pulses latch the block's selection, under which the next conversion is made.
`c` is the chip after its turn before the first rising edge, `e` the environment at the last falling edge, and the turn of `e` is
the chip's last one in the frame; `95 + 4 * n` entries of the schedule are gone by then (notes/assumptions/9.md). -/
def Obligations.SelectionLagsByOneRead : Prop :=
  ∀ (s : State) (c : Chip) (sel : Selection), s.seq = .idle → s.setupDone = true → s.sck = low → s.sckDir = .output →
    (s.env.turn false).chip = some c → c.power = .on → c.desync = false → c.highFor = none → c.ready = true → c.cnt = 0 →
    ∃ (t u : State) (e : Env) (d : Chip),
      exec (.setGain (gainOf sel)) s = .next t ∧ exec .readRaw t = .next u ∧ u.result = widen c.data ∧
      e.chip = some d ∧ e.schedule = s.env.schedule.drop (95 + 4 * (pulsesOf sel).toNat) ∧
      u.env.chip = (e.turn false).chip ∧
      d.sel = c.sel ∧ d.cnt = 24 + (pulsesOf sel).toNat ∧ d.ready = false ∧ d.dout = high ∧ d.desync = false ∧
      ∀ (tag : Selection) (p : Pattern), (d.newConversion tag p).sel = sel ∧ (d.newConversion tag p).dataSel = sel ∧
        (d.newConversion tag p).data = p ∧ (d.newConversion tag p).ready = true ∧ (d.newConversion tag p).dout = low

/-- R81, R153(d), R236: a read when the chip is not ready completes all the same, and leaves the chip desynchronised until a
power cycle, for every schedule.  `c` is the chip after its turn before the first rising edge. -/
def Obligations.NotReadyReadNeedsPowerCycle : Prop :=
  ∀ (s : State) (c : Chip), s.seq = .idle → s.setupDone = true → s.sck = low → s.sckDir = .output →
    s.pulseCount ≠ 0#2 → (s.env.turn false).chip = some c → c.power = .on → c.highFor = none → c.ready = false →
    ∃ t u d d', exec .readRaw s = .next t ∧ t.env.chip = some d ∧ d.desync = true ∧
      execAll powerCycle t = .next u ∧ u.env.chip = some d' ∧ d'.desync = false ∧ d'.sel = .a128

/-- R81: the wake is the only way out of `DESYNC`. -/
def Obligations.OnlyWakeLeavesDesync : Prop :=
  ∀ c : Chip, c.desync = true →
    (∀ n, (c.elapse n).desync = true) ∧ (∀ tag d, (c.newConversion tag d).desync = true) ∧
    (∀ kind v, (c.drive kind v).desync = false ↔ c.power = .asleep ∧ c.highFor ≠ none ∧ v = low)

/-- The rows of the reference chip's table (spec/95_test_vectors.md 2.8): first pulse, 25th pulse, latch at the next conversion,
replaced conversion, sleep, wake, a read that starts not ready; and the high of a sleep request, no pulse (R103, R121), which
desynchronises only when it is cut short (R81, R234; notes/assumptions/15.md, 16.md). -/
def Obligations.ReferenceChipRows : Prop :=
  ∀ c : Chip, c.power = .on → c.desync = false → c.highFor = none →
    (c.ready = true → c.cnt = 0 → ∀ kind, kind ≠ .request → (c.drive kind high).cnt = 1 ∧
      (c.drive kind high).dout = c.data.extractLsb' 23 1 ∧ (c.drive kind high).desync = false) ∧
    (c.cnt = 24 → ∃ d, c.drive .later high = d ∧ d.cnt = 25 ∧ d.ready = false ∧ d.dout = high) ∧
    (c.cnt = 26 → ∀ tag p, c.newConversion tag p =
      { c with sel := .b32, dataSel := .b32, cnt := 0, data := p, ready := true, dout := low }) ∧
    (c.cnt = 0 → ∀ tag p, (c.newConversion tag p).sel = c.sel ∧ (c.newConversion tag p).data = p ∧
      (c.newConversion tag p).ready = true) ∧
    (∀ kind n, 60 < n → ((c.drive kind high).elapse n).power = .asleep) ∧
    (∀ kind kind' n, 60 < n → ∃ d, ((c.drive kind high).elapse n).drive kind' low = d ∧ d.power = .on ∧ d.sel = .a128 ∧
      d.cnt = 0 ∧ d.ready = false ∧ d.dout = high ∧ d.desync = false) ∧
    (c.ready = false → ((c.drive .first high).desync = true)) ∧
    c.drive .request high = { c with highFor := some 0 } ∧
    (∀ n, n ≤ 60 → (((c.drive .request high).elapse n).drive .request low).desync = true)

/-! ## The caller and several blocks -/

/-- R106: under the free oracle, `SAMPLE` polls until the answer is 1, then reads; it returns the reading that the samples
spell. -/
def Obligations.SampleWaitsThenReads : Prop :=
  ∀ (s : State) (k polls : Nat) (bs rest : List Level), s.seq = .idle → s.setupDone = true → s.sck = low →
    s.pulseCount ≠ 0#2 → s.env.chip = none → bs.length = 24 → k < polls →
    s.env.answers = List.replicate k high ++ low :: (bs ++ rest) →
    ∃ t, sampleOnce polls s = some (.next t) ∧ t.result.toInt = readingOf bs ∧
      t.responses = s.responses ++ List.replicate k 0#32 ++ [1#32, t.result] ∧ t.env.answers = rest

/-- R202, R63, R238: several blocks with their own pins are independent: a step of one is a step of that block, changes no other,
and every block keeps its pins.  Blocks that share a pin are refused; that a fault or a refusal of one block ends the step of
all is the model's choice (notes/assumptions/23.md) and not said here. -/
def Obligations.BlocksAreIndependent : Prop :=
  ∀ (n : Nat) (ms : List State),
    (ownPins ms = false → stepOne n ms = some (.refused .pinsShared)) ∧
    (∀ s t, ownPins ms = true → ms[n]? = some s → step s = .next t → stepOne n ms = some (.next (ms.set n t))) ∧
    (∀ ts, stepOne n ms = some (.next ts) →
      ownPins ms = true ∧ (∀ m, m ≠ n → ts[m]? = ms[m]?) ∧
      (∃ s t, ms[n]? = some s ∧ ts[n]? = some t ∧ step s = .next t) ∧ pinsOf ts = pinsOf ms ∧ ownPins ts = true)
end

