-- ==== Sys2Proof/Laws/Checks.lean ====
section
/-!
SUPPORT. What the checks before a command can do (spec/60_exceptions.md R195): each either lets the command through or stops it
with its own reason.
-/

namespace Sys2Proof.Machine

open Sys2Proof

theorem whenIdle_next {s t : State} {k : Result} : whenIdle s k = .next t ↔ s.seq = .idle ∧ k = .next t := by
  unfold whenIdle; split <;> simp [*]

theorem whenSetUp_next {s t : State} {k : Result} : whenSetUp s k = .next t ↔ s.setupDone = true ∧ k = .next t := by
  unfold whenSetUp; split <;> simp [*]

theorem whenNotSetUp_next {s t : State} {k : Result} :
    whenNotSetUp s k = .next t ↔ s.setupDone = false ∧ k = .next t := by
  unfold whenNotSetUp; split <;> simp [*]

theorem whenClockLow_next {s t : State} {k : Result} : whenClockLow s k = .next t ↔ s.sck = low ∧ k = .next t := by
  unfold whenClockLow; split <;> simp [*]

theorem whenCounted_next {s t : State} {k : Result} :
    whenCounted s k = .next t ↔ s.pulseCount ≠ 0#2 ∧ k = .next t := by
  unfold whenCounted; split <;> simp [*]

/-- A check whose condition holds lets the command through. -/
theorem whenIdle_pass {s : State} {k : Result} (h : s.seq = .idle) : whenIdle s k = k := if_pos h

theorem whenSetUp_pass {s : State} {k : Result} (h : s.setupDone = true) : whenSetUp s k = k := if_pos h

theorem whenNotSetUp_pass {s : State} {k : Result} (h : s.setupDone = false) : whenNotSetUp s k = k :=
  if_neg (by simp [h])

theorem whenClockLow_pass {s : State} {k : Result} (h : s.sck = low) : whenClockLow s k = k := if_pos h

theorem whenCounted_pass {s : State} {k : Result} (h : s.pulseCount ≠ 0#2) : whenCounted s k = k := if_neg h

/-- When a command ends with a next state, and which (R13): the one inversion lemma for `exec`. -/
theorem exec_next {i : Instr} {s t : State} : exec i s = .next t ↔ s.seq = .idle ∧
    match i with
    | .setup => s.setupDone = false ∧ t = s.setupBody
    | .setGain sel => ∃ n, pulseCountOf sel = some n ∧ t = { s with pulseCount := n }
    | .isReady => s.setupDone = true ∧ t = (s.accept .isReady).poll.endPoll
    | .readRaw => s.setupDone = true ∧ s.sck = low ∧ s.pulseCount ≠ 0#2 ∧ t = s.readRawBody
    | .powerDown => s.setupDone = true ∧
        t = (((s.accept .powerDown).memWrite high).delay Config.tPdHoldMin).endPowerDown
    | .powerUp => s.setupDone = true ∧ t = ((s.accept .powerUp).memWrite low).endPowerUp := by
  cases i with
  | setup => simp [exec, execSetup, whenIdle_next, whenNotSetUp_next, @eq_comm _ t]
  | setGain sel =>
    simp only [exec, execSetGain, whenIdle_next, State.endSetGain]
    refine and_congr_right fun h => ?_
    have e : ∀ n, State.finish { State.accept (.setGain sel) s with pulseCount := n } = { s with pulseCount := n } := by
      intro n; simp [State.finish, State.accept, ← h]
    cases hp : pulseCountOf sel <;> simp [e, @eq_comm _ t]
  | isReady => simp [exec, execIsReady, whenIdle_next, whenSetUp_next, @eq_comm _ t]
  | readRaw => simp [exec, execReadRaw, whenIdle_next, whenSetUp_next, whenClockLow_next, whenCounted_next, @eq_comm _ t]
  | powerDown => simp [exec, execPowerDown, whenIdle_next, whenSetUp_next, @eq_comm _ t]
  | powerUp => simp [exec, execPowerUp, whenIdle_next, whenSetUp_next, @eq_comm _ t]

end Sys2Proof.Machine
end

