-- ==== Sys2Proof/Laws/Environment.lean ====
section
/-!
SUPPORT. The environment's operations, once each: under the free oracle only the answers move (spec/20_memory.md R57(a)), and a
chip that is attached stays attached (R57(b)).
-/

namespace Sys2Proof.Machine

open Sys2Proof

@[simp] theorem draw_chip (e : Env) : e.draw.2.chip = e.chip := by
  unfold Env.draw; split <;> rfl

@[simp] theorem draw_schedule (e : Env) : e.draw.2.schedule = e.schedule := by
  unfold Env.draw; split <;> rfl

@[simp] theorem drive_chip (e : Env) (kind : PulseKind) (v : Level) :
    (e.drive kind v).chip = e.chip.map (Chip.drive kind v) := rfl

@[simp] theorem elapse_chip (e : Env) (n : Nat) : (e.elapse n).chip = e.chip.map (Chip.elapse n) := rfl

@[simp] theorem sample_chip (e : Env) : e.sample.2.chip = e.chip := by
  unfold Env.sample; split
  · simp
  · split <;> simp [*]

/-- The free oracle takes no turn and sees nothing of the clock line. -/
theorem turn_oracle {e : Env} (h : e.chip = none) (mid : Bool) : e.turn mid = e := by
  simp [Env.turn, h]

theorem drive_oracle {e : Env} (h : e.chip = none) (kind : PulseKind) (v : Level) : e.drive kind v = e := by
  cases e; simp_all [Env.drive]

theorem elapse_oracle {e : Env} (h : e.chip = none) (n : Nat) : e.elapse n = e := by
  cases e; simp_all [Env.elapse]

theorem sample_oracle {e : Env} (h : e.chip = none) : e.sample = e.draw := by
  simp [Env.sample, h]

/-- With no conversion scheduled the reference chip takes no turn. -/
theorem turn_unscheduled {e : Env} (h : e.schedule = []) (mid : Bool) : e.turn mid = e := by
  unfold Env.turn; split
  · simp_all
  · rfl

theorem convert_isSome (e : Env) (d : Pattern) : (e.convert d).chip.isSome = e.chip.isSome := by
  unfold Env.convert; split <;> simp [*]

theorem convertAll_isSome (ds : List Pattern) (e : Env) : (Env.convertAll ds e).chip.isSome = e.chip.isSome := by
  induction ds generalizing e with
  | nil => rfl
  | cons d ds ih => simp [Env.convertAll, ih, convert_isSome]

theorem turn_isSome (e : Env) (mid : Bool) : (e.turn mid).chip.isSome = e.chip.isSome := by
  unfold Env.turn; split
  · split
    · simp [*]
    · simp [convertAll_isSome]
  · rfl

/-- A property of the chip that every conversion keeps, the chip's turn keeps: the package of the induction over the
conversions of one turn (R79). -/
theorem turn_keeps (P : Chip → Prop) (hP : ∀ tag d c, P c → P (c.newConversion tag d)) (e : Env) (mid : Bool)
    (h : ∀ c, e.chip = some c → P c) : ∀ c, (e.turn mid).chip = some c → P c := by
  have all : ∀ (ds : List Pattern) (e : Env), (∀ c, e.chip = some c → P c) →
      ∀ c, (Env.convertAll ds e).chip = some c → P c := by
    intro ds
    induction ds with
    | nil => exact fun e h => h
    | cons d ds ih =>
      intro e h
      refine ih _ fun c hc => ?_
      unfold Env.convert at hc
      split at hc
      · exact h c hc
      · next c0 h0 =>
        cases hc
        exact hP _ _ _ (h c0 h0)
  unfold Env.turn
  split
  · split
    · exact h
    · exact all _ _ h
  · exact h

/-- A whole frame latches the selection of its selection pulses (R75). -/
theorem latched_of_frame {c : Chip} {sel : Selection} (h : c.cnt = 24 + (pulsesOf sel).toNat) : c.latched = sel := by
  have : c.cnt - 24 = (pulsesOf sel).toNat := by omega
  unfold Chip.latched
  rw [this]
  cases sel <;> rfl

/-- Without a frame nothing is latched (R75). -/
theorem latched_of_unread {c : Chip} (h : c.cnt = 0) : c.latched = c.sel := by
  have : c.cnt - 24 = 0 := by omega
  unfold Chip.latched
  rw [this]
  rfl

/-- A conversion that completes leaves the chip as synchronised or desynchronised as it was (R79, R81). -/
@[simp] theorem newConversion_desync (c : Chip) (tag : Selection) (d : Pattern) :
    (c.newConversion tag d).desync = c.desync := by
  unfold Chip.newConversion; split
  · rfl
  · split <;> rfl

/-- Nor does the passing of time change that (R77, R81). -/
@[simp] theorem elapse_desync (c : Chip) (n : Nat) : (c.elapse n).desync = c.desync := by
  unfold Chip.elapse; split
  · rfl
  · split <;> rfl

/-- The rise of a sleep request only starts the high (R103, R121). -/
theorem drive_request_high (c : Chip) :
    c.drive .request high = { c with highFor := some (c.highFor.getD 0) } := by
  cases c with
  | mk p sel d ds r cnt dout hf ds2 => cases hf <;> simp [Chip.drive, Chip.rise]

/-- A chip that may not convert does not change on its own (R79). -/
theorem newConversion_disabled {c : Chip} (h : c.mayConvert = false) (tag : Selection) (d : Pattern) :
    c.newConversion tag d = c := by
  simp [Chip.newConversion, h]

/-- While the clock line is high the chip completes no conversion (R79). -/
theorem mayConvert_of_high {c : Chip} (h : c.highFor ≠ none) : c.mayConvert = false := by
  cases hc : c.highFor with
  | none => exact absurd hc h
  | some n => simp [Chip.mayConvert, hc]

/-- The chip's turn leaves a chip alone whose clock line is high. -/
theorem turn_of_high {e : Env} {c : Chip} (h : e.chip = some c) (hh : c.highFor ≠ none) (mid : Bool) :
    (e.turn mid).chip = some c := by
  have := turn_keeps (fun d => d = c)
    (by rintro tag d c' rfl; exact newConversion_disabled (mayConvert_of_high hh) tag d) e mid
    (by intro d hd; rw [h] at hd; cases hd; rfl)
  cases ht : (e.turn mid).chip with
  | some d => rw [this d ht]
  | none =>
    have := turn_isSome e mid
    simp [ht, h] at this

/-- Nor does it complete one while a frame is half way (U22). -/
theorem turn_midFrame (e : Env) : (e.turn true).chip = e.chip := by
  unfold Env.turn; split <;> simp [*]

end Sys2Proof.Machine
end

