-- ==== Sys2Proof/Laws/State.lean ====
section
/-!
SUPPORT. One lemma per field of the state for each named operation: what the operation leaves in that field.  Later proofs
cite these and unfold no operation.
-/

namespace Sys2Proof.Machine

open Sys2Proof

variable (s : State)

/-! ## Acceptance (R30, R143). -/

@[simp] theorem accept_clockPin (c : Instr) : (s.accept c).clockPin = s.clockPin := by cases c <;> rfl

@[simp] theorem accept_dataPin (c : Instr) : (s.accept c).dataPin = s.dataPin := by cases c <;> rfl

@[simp] theorem accept_pulseCount (c : Instr) : (s.accept c).pulseCount = s.pulseCount := by cases c <;> rfl

@[simp] theorem accept_sck (c : Instr) : (s.accept c).sck = s.sck := by cases c <;> rfl

@[simp] theorem accept_sckDir (c : Instr) : (s.accept c).sckDir = s.sckDir := by cases c <;> rfl

@[simp] theorem accept_doutDir (c : Instr) : (s.accept c).doutDir = s.doutDir := by cases c <;> rfl

@[simp] theorem accept_result (c : Instr) : (s.accept c).result = s.result := by cases c <;> rfl

@[simp] theorem accept_seq (c : Instr) : (s.accept c).seq = .run c 0 := by cases c <;> rfl

@[simp] theorem accept_setupDone (c : Instr) : (s.accept c).setupDone = s.setupDone := by cases c <;> rfl

@[simp] theorem accept_power (c : Instr) : (s.accept c).power = s.power := by cases c <;> rfl

@[simp] theorem accept_trace (c : Instr) : (s.accept c).trace = s.trace := by cases c <;> rfl

@[simp] theorem accept_responses (c : Instr) : (s.accept c).responses = s.responses := by cases c <;> rfl

@[simp] theorem accept_commands (c : Instr) : (s.accept c).commands = s.commands := by cases c <;> rfl

@[simp] theorem accept_env (c : Instr) : (s.accept c).env = s.env := by cases c <;> rfl

/-! ## The end of a command (R30). -/

@[simp] theorem finish_clockPin : s.finish.clockPin = s.clockPin := rfl

@[simp] theorem finish_dataPin : s.finish.dataPin = s.dataPin := rfl

@[simp] theorem finish_pulseCount : s.finish.pulseCount = s.pulseCount := rfl

@[simp] theorem finish_sck : s.finish.sck = s.sck := rfl

@[simp] theorem finish_sckDir : s.finish.sckDir = s.sckDir := rfl

@[simp] theorem finish_doutDir : s.finish.doutDir = s.doutDir := rfl

@[simp] theorem finish_acc : s.finish.acc = s.acc := rfl

@[simp] theorem finish_result : s.finish.result = s.result := rfl

@[simp] theorem finish_seq : s.finish.seq = .idle := rfl

@[simp] theorem finish_setupDone : s.finish.setupDone = s.setupDone := rfl

@[simp] theorem finish_power : s.finish.power = s.power := rfl

@[simp] theorem finish_trace : s.finish.trace = s.trace := rfl

@[simp] theorem finish_responses : s.finish.responses = s.responses := rfl

@[simp] theorem finish_commands : s.finish.commands = s.commands := rfl

@[simp] theorem finish_env : s.finish.env = s.env := rfl

/-! ## An event (R11, R30). -/

@[simp] theorem emit_clockPin (e : Event) : (s.emit e).clockPin = s.clockPin := rfl

@[simp] theorem emit_dataPin (e : Event) : (s.emit e).dataPin = s.dataPin := rfl

@[simp] theorem emit_pulseCount (e : Event) : (s.emit e).pulseCount = s.pulseCount := rfl

@[simp] theorem emit_sck (e : Event) : (s.emit e).sck = s.sck := rfl

@[simp] theorem emit_sckDir (e : Event) : (s.emit e).sckDir = s.sckDir := rfl

@[simp] theorem emit_doutDir (e : Event) : (s.emit e).doutDir = s.doutDir := rfl

@[simp] theorem emit_acc (e : Event) : (s.emit e).acc = s.acc := rfl

@[simp] theorem emit_result (e : Event) : (s.emit e).result = s.result := rfl

@[simp] theorem emit_seq (e : Event) : (s.emit e).seq = s.seq.bump := rfl

@[simp] theorem emit_setupDone (e : Event) : (s.emit e).setupDone = s.setupDone := rfl

@[simp] theorem emit_power (e : Event) : (s.emit e).power = s.power := rfl

@[simp] theorem emit_trace (e : Event) : (s.emit e).trace = s.trace ++ [e] := rfl

@[simp] theorem emit_responses (e : Event) : (s.emit e).responses = s.responses := rfl

@[simp] theorem emit_commands (e : Event) : (s.emit e).commands = s.commands := rfl

@[simp] theorem emit_env (e : Event) : (s.emit e).env = s.env := rfl

/-! ## The chip's turn (R66). -/

@[simp] theorem chipTurn_clockPin : s.chipTurn.clockPin = s.clockPin := rfl

@[simp] theorem chipTurn_dataPin : s.chipTurn.dataPin = s.dataPin := rfl

@[simp] theorem chipTurn_pulseCount : s.chipTurn.pulseCount = s.pulseCount := rfl

@[simp] theorem chipTurn_sck : s.chipTurn.sck = s.sck := rfl

@[simp] theorem chipTurn_sckDir : s.chipTurn.sckDir = s.sckDir := rfl

@[simp] theorem chipTurn_doutDir : s.chipTurn.doutDir = s.doutDir := rfl

@[simp] theorem chipTurn_acc : s.chipTurn.acc = s.acc := rfl

@[simp] theorem chipTurn_result : s.chipTurn.result = s.result := rfl

@[simp] theorem chipTurn_seq : s.chipTurn.seq = s.seq := rfl

@[simp] theorem chipTurn_setupDone : s.chipTurn.setupDone = s.setupDone := rfl

@[simp] theorem chipTurn_power : s.chipTurn.power = s.power := rfl

@[simp] theorem chipTurn_trace : s.chipTurn.trace = s.trace := rfl

@[simp] theorem chipTurn_responses : s.chipTurn.responses = s.responses := rfl

@[simp] theorem chipTurn_commands : s.chipTurn.commands = s.commands := rfl

@[simp] theorem chipTurn_env : s.chipTurn.env = s.env.turn s.midFrame := rfl

/-! ## `PinMode(CLOCK_PIN, OUTPUT)` (R53). -/

@[simp] theorem pinModeClock_clockPin : s.pinModeClock.clockPin = s.clockPin := rfl

@[simp] theorem pinModeClock_dataPin : s.pinModeClock.dataPin = s.dataPin := rfl

@[simp] theorem pinModeClock_pulseCount : s.pinModeClock.pulseCount = s.pulseCount := rfl

@[simp] theorem pinModeClock_sck : s.pinModeClock.sck = s.sck := rfl

@[simp] theorem pinModeClock_sckDir : s.pinModeClock.sckDir = .output := rfl

@[simp] theorem pinModeClock_doutDir : s.pinModeClock.doutDir = s.doutDir := rfl

@[simp] theorem pinModeClock_acc : s.pinModeClock.acc = s.acc := rfl

@[simp] theorem pinModeClock_result : s.pinModeClock.result = s.result := rfl

@[simp] theorem pinModeClock_seq : s.pinModeClock.seq = s.seq.bump := rfl

@[simp] theorem pinModeClock_setupDone : s.pinModeClock.setupDone = s.setupDone := rfl

@[simp] theorem pinModeClock_power : s.pinModeClock.power = s.power := rfl

@[simp] theorem pinModeClock_trace : s.pinModeClock.trace = s.trace ++ [.cfg s.clockPin .output] := rfl

@[simp] theorem pinModeClock_responses : s.pinModeClock.responses = s.responses := rfl

@[simp] theorem pinModeClock_commands : s.pinModeClock.commands = s.commands := rfl

/-! ## `PinMode(DATA_PIN, INPUT)` (R53). -/

@[simp] theorem pinModeData_clockPin : s.pinModeData.clockPin = s.clockPin := rfl

@[simp] theorem pinModeData_dataPin : s.pinModeData.dataPin = s.dataPin := rfl

@[simp] theorem pinModeData_pulseCount : s.pinModeData.pulseCount = s.pulseCount := rfl

@[simp] theorem pinModeData_sck : s.pinModeData.sck = s.sck := rfl

@[simp] theorem pinModeData_sckDir : s.pinModeData.sckDir = s.sckDir := rfl

@[simp] theorem pinModeData_doutDir : s.pinModeData.doutDir = .input := rfl

@[simp] theorem pinModeData_acc : s.pinModeData.acc = s.acc := rfl

@[simp] theorem pinModeData_result : s.pinModeData.result = s.result := rfl

@[simp] theorem pinModeData_seq : s.pinModeData.seq = s.seq.bump := rfl

@[simp] theorem pinModeData_setupDone : s.pinModeData.setupDone = s.setupDone := rfl

@[simp] theorem pinModeData_power : s.pinModeData.power = s.power := rfl

@[simp] theorem pinModeData_trace : s.pinModeData.trace = s.trace ++ [.cfg s.dataPin .input] := rfl

@[simp] theorem pinModeData_responses : s.pinModeData.responses = s.responses := rfl

@[simp] theorem pinModeData_commands : s.pinModeData.commands = s.commands := rfl

@[simp] theorem pinModeData_env : s.pinModeData.env = s.env.turn s.midFrame := rfl

/-! ## `MemWrite(CLOCK_PIN, 1, v)` (R54). -/

@[simp] theorem memWrite_clockPin (v : Level) : (s.memWrite v).clockPin = s.clockPin := rfl

@[simp] theorem memWrite_dataPin (v : Level) : (s.memWrite v).dataPin = s.dataPin := rfl

@[simp] theorem memWrite_pulseCount (v : Level) : (s.memWrite v).pulseCount = s.pulseCount := rfl

@[simp] theorem memWrite_sck (v : Level) : (s.memWrite v).sck = v := rfl

@[simp] theorem memWrite_sckDir (v : Level) : (s.memWrite v).sckDir = s.sckDir := rfl

@[simp] theorem memWrite_doutDir (v : Level) : (s.memWrite v).doutDir = s.doutDir := rfl

@[simp] theorem memWrite_acc (v : Level) : (s.memWrite v).acc = s.acc := rfl

@[simp] theorem memWrite_result (v : Level) : (s.memWrite v).result = s.result := rfl

@[simp] theorem memWrite_seq (v : Level) : (s.memWrite v).seq = s.seq.bump := rfl

@[simp] theorem memWrite_setupDone (v : Level) : (s.memWrite v).setupDone = s.setupDone := rfl

@[simp] theorem memWrite_power (v : Level) : (s.memWrite v).power = s.power := rfl

@[simp] theorem memWrite_trace (v : Level) : (s.memWrite v).trace = s.trace ++ [.wr s.clockPin v] := rfl

@[simp] theorem memWrite_responses (v : Level) : (s.memWrite v).responses = s.responses := rfl

@[simp] theorem memWrite_commands (v : Level) : (s.memWrite v).commands = s.commands := rfl

@[simp] theorem memWrite_env (v : Level) : (s.memWrite v).env = if s.sckDir = .output then (s.env.turn s.midFrame).drive s.pulseKind v else s.env.turn s.midFrame := rfl

/-! ## `MemRead(DATA_PIN, 1)` (R55): no effect on the block's state. -/

@[simp] theorem memRead_clockPin : s.memRead.2.clockPin = s.clockPin := rfl

@[simp] theorem memRead_dataPin : s.memRead.2.dataPin = s.dataPin := rfl

@[simp] theorem memRead_pulseCount : s.memRead.2.pulseCount = s.pulseCount := rfl

@[simp] theorem memRead_sck : s.memRead.2.sck = s.sck := rfl

@[simp] theorem memRead_sckDir : s.memRead.2.sckDir = s.sckDir := rfl

@[simp] theorem memRead_doutDir : s.memRead.2.doutDir = s.doutDir := rfl

@[simp] theorem memRead_acc : s.memRead.2.acc = s.acc := rfl

@[simp] theorem memRead_result : s.memRead.2.result = s.result := rfl

@[simp] theorem memRead_seq : s.memRead.2.seq = s.seq.bump := rfl

@[simp] theorem memRead_setupDone : s.memRead.2.setupDone = s.setupDone := rfl

@[simp] theorem memRead_power : s.memRead.2.power = s.power := rfl

@[simp] theorem memRead_trace : s.memRead.2.trace = s.trace ++ [.rd s.dataPin s.memRead.1] := rfl

@[simp] theorem memRead_responses : s.memRead.2.responses = s.responses := rfl

@[simp] theorem memRead_commands : s.memRead.2.commands = s.commands := rfl

@[simp] theorem memRead_env : s.memRead.2.env = (s.env.turn s.midFrame).sample.2 := rfl

/-! ## `Delay(n)` (R56). -/

@[simp] theorem delay_clockPin (n : Nat) : (s.delay n).clockPin = s.clockPin := rfl

@[simp] theorem delay_dataPin (n : Nat) : (s.delay n).dataPin = s.dataPin := rfl

@[simp] theorem delay_pulseCount (n : Nat) : (s.delay n).pulseCount = s.pulseCount := rfl

@[simp] theorem delay_sck (n : Nat) : (s.delay n).sck = s.sck := rfl

@[simp] theorem delay_sckDir (n : Nat) : (s.delay n).sckDir = s.sckDir := rfl

@[simp] theorem delay_doutDir (n : Nat) : (s.delay n).doutDir = s.doutDir := rfl

@[simp] theorem delay_acc (n : Nat) : (s.delay n).acc = s.acc := rfl

@[simp] theorem delay_result (n : Nat) : (s.delay n).result = s.result := rfl

@[simp] theorem delay_seq (n : Nat) : (s.delay n).seq = s.seq.bump := rfl

@[simp] theorem delay_setupDone (n : Nat) : (s.delay n).setupDone = s.setupDone := rfl

@[simp] theorem delay_power (n : Nat) : (s.delay n).power = s.power := rfl

@[simp] theorem delay_trace (n : Nat) : (s.delay n).trace = s.trace ++ [.dly n] := rfl

@[simp] theorem delay_responses (n : Nat) : (s.delay n).responses = s.responses := rfl

@[simp] theorem delay_commands (n : Nat) : (s.delay n).commands = s.commands := rfl

@[simp] theorem delay_env (n : Nat) : (s.delay n).env = (s.env.turn s.midFrame).elapse n := rfl

/-! ## A response (R10). -/

@[simp] theorem respond_clockPin (v : Response) : (s.respond v).clockPin = s.clockPin := rfl

@[simp] theorem respond_dataPin (v : Response) : (s.respond v).dataPin = s.dataPin := rfl

@[simp] theorem respond_pulseCount (v : Response) : (s.respond v).pulseCount = s.pulseCount := rfl

@[simp] theorem respond_sck (v : Response) : (s.respond v).sck = s.sck := rfl

@[simp] theorem respond_sckDir (v : Response) : (s.respond v).sckDir = s.sckDir := rfl

@[simp] theorem respond_doutDir (v : Response) : (s.respond v).doutDir = s.doutDir := rfl

@[simp] theorem respond_acc (v : Response) : (s.respond v).acc = s.acc := rfl

@[simp] theorem respond_result (v : Response) : (s.respond v).result = v := rfl

@[simp] theorem respond_seq (v : Response) : (s.respond v).seq = s.seq := rfl

@[simp] theorem respond_setupDone (v : Response) : (s.respond v).setupDone = s.setupDone := rfl

@[simp] theorem respond_power (v : Response) : (s.respond v).power = s.power := rfl

@[simp] theorem respond_trace (v : Response) : (s.respond v).trace = s.trace := rfl

@[simp] theorem respond_responses (v : Response) : (s.respond v).responses = s.responses ++ [v] := rfl

@[simp] theorem respond_commands (v : Response) : (s.respond v).commands = s.commands := rfl

@[simp] theorem respond_env (v : Response) : (s.respond v).env = s.env := rfl

/-! ## The SAMPLE row of a bit cycle (R144). -/

@[simp] theorem sampleBit_clockPin : s.sampleBit.clockPin = s.clockPin := rfl

@[simp] theorem sampleBit_dataPin : s.sampleBit.dataPin = s.dataPin := rfl

@[simp] theorem sampleBit_pulseCount : s.sampleBit.pulseCount = s.pulseCount := rfl

@[simp] theorem sampleBit_sck : s.sampleBit.sck = s.sck := rfl

@[simp] theorem sampleBit_sckDir : s.sampleBit.sckDir = s.sckDir := rfl

@[simp] theorem sampleBit_doutDir : s.sampleBit.doutDir = s.doutDir := rfl

@[simp] theorem sampleBit_acc : s.sampleBit.acc = shiftIn s.acc s.memRead.1 := rfl

@[simp] theorem sampleBit_result : s.sampleBit.result = s.result := rfl

@[simp] theorem sampleBit_seq : s.sampleBit.seq = s.seq.bump := rfl

@[simp] theorem sampleBit_setupDone : s.sampleBit.setupDone = s.setupDone := rfl

@[simp] theorem sampleBit_power : s.sampleBit.power = s.power := rfl

@[simp] theorem sampleBit_trace : s.sampleBit.trace = s.trace ++ [.rd s.dataPin s.memRead.1] := rfl

@[simp] theorem sampleBit_responses : s.sampleBit.responses = s.responses := rfl

@[simp] theorem sampleBit_commands : s.sampleBit.commands = s.commands := rfl

@[simp] theorem sampleBit_env : s.sampleBit.env = (s.env.turn s.midFrame).sample.2 := rfl

/-! ## The sample of `IS_READY` (R140). -/

@[simp] theorem poll_clockPin : s.poll.clockPin = s.clockPin := rfl

@[simp] theorem poll_dataPin : s.poll.dataPin = s.dataPin := rfl

@[simp] theorem poll_pulseCount : s.poll.pulseCount = s.pulseCount := rfl

@[simp] theorem poll_sck : s.poll.sck = s.sck := rfl

@[simp] theorem poll_sckDir : s.poll.sckDir = s.sckDir := rfl

@[simp] theorem poll_doutDir : s.poll.doutDir = s.doutDir := rfl

@[simp] theorem poll_acc : s.poll.acc = s.acc := rfl

@[simp] theorem poll_result : s.poll.result = readyAnswer s.memRead.1 := rfl

@[simp] theorem poll_seq : s.poll.seq = s.seq.bump := rfl

@[simp] theorem poll_setupDone : s.poll.setupDone = s.setupDone := rfl

@[simp] theorem poll_power : s.poll.power = s.power := rfl

@[simp] theorem poll_trace : s.poll.trace = s.trace ++ [.rd s.dataPin s.memRead.1] := rfl

@[simp] theorem poll_responses : s.poll.responses = s.responses := rfl

@[simp] theorem poll_commands : s.poll.commands = s.commands := rfl

@[simp] theorem poll_env : s.poll.env = (s.env.turn s.midFrame).sample.2 := rfl

@[simp] theorem accept_readRaw_acc : (s.accept .readRaw).acc = 0#24 := rfl

@[simp] theorem accept_other_acc (c : Instr) (h : c ≠ .readRaw) : (s.accept c).acc = s.acc := by
  cases c <;> first | rfl | exact absurd rfl h

end Sys2Proof.Machine
end

