-- ==== Sys2Proof/Laws/Commands.lean ====
section
/-!
SUPPORT. The shared operations of the commands in closed form, before any environment: which events a bit cycle, a selection
pulse and a whole body append and what they leave in the block (spec/41_acquisition.md R144, R146, R152).  The environment's
answers and its state afterwards are named, and given for the free oracle.
-/

namespace Sys2Proof.Machine

open Sys2Proof

/-- `n` answers of the free oracle. -/
def Env.drawN : Nat → Env → List Level × Env
  | 0, e => ([], e)
  | n + 1, e =>
    let a := e.draw
    let b := Env.drawN n a.2
    (a.1 :: b.1, b.2)

theorem drawN_answers (bs rest : List Level) (e : Env) (h : e.answers = bs ++ rest) :
    Env.drawN bs.length e = (bs, { e with answers := rest }) := by
  induction bs generalizing e with
  | nil => cases e; simp_all [Env.drawN]
  | cons b bs ih =>
    have : e.draw = (b, { e with answers := bs ++ rest }) := by simp [Env.draw, h]
    simp [Env.drawN, this, ih]

/-- `n` events further in the command. -/
def Seq.bumps (n : Nat) (q : Seq) : Seq :=
  match q with
  | .idle => .idle
  | .run c k => .run c (k + n)

@[simp] theorem bumps_zero (q : Seq) : q.bumps 0 = q := by cases q <;> rfl

theorem bump_eq (q : Seq) : q.bump = q.bumps 1 := by cases q <;> rfl

@[simp] theorem bumps_bumps (m n : Nat) (q : Seq) : (q.bumps m).bumps n = q.bumps (m + n) := by
  cases q <;> simp [Seq.bumps, Nat.add_assoc]

@[simp] theorem bumps_idle (n : Nat) : Seq.idle.bumps n = .idle := rfl

@[simp] theorem bumps_run (n k : Nat) (c : Instr) : (Seq.run c k).bumps n = .run c (k + n) := rfl

/-- Two states with the same fields are the same. -/
theorem state_ext {s t : State} (h1 : s.clockPin = t.clockPin) (h2 : s.dataPin = t.dataPin)
    (h3 : s.pulseCount = t.pulseCount) (h4 : s.sck = t.sck) (h5 : s.sckDir = t.sckDir) (h6 : s.doutDir = t.doutDir)
    (h7 : s.acc = t.acc) (h8 : s.result = t.result) (h9 : s.seq = t.seq) (h10 : s.setupDone = t.setupDone)
    (h11 : s.power = t.power) (h12 : s.trace = t.trace) (h13 : s.responses = t.responses)
    (h14 : s.commands = t.commands) (h15 : s.env = t.env) : s = t := by
  cases s; cases t; simp_all

/-- One bit cycle: the level it sampled is `b` (R144). -/
theorem bitCycle_spec (s : State) : ∃ b e, s.bitCycle =
      { s with sck := low, acc := shiftIn s.acc b, seq := s.seq.bumps 4,
               trace := s.trace ++ bitTrace s.clockPin s.dataPin b, env := e } ∧
      (s.env.chip = none → (b, e) = s.env.draw) := by
  refine ⟨((s.memWrite high).delay Config.tBitHighMin).memRead.1, s.bitCycle.env, ?_, fun h => ?_⟩
  · refine state_ext ?_ ?_ ?_ ?_ ?_ ?_ ?_ ?_ ?_ ?_ ?_ ?_ ?_ ?_ ?_ <;> simp [State.bitCycle, bump_eq, bitTrace]
  · have h1 : (s.memWrite high).env = s.env := by
      simp [turn_oracle h, drive_oracle h]
    have h2 : ((s.memWrite high).delay Config.tBitHighMin).env = s.env := by
      simp only [delay_env, h1, turn_oracle h, elapse_oracle h]
    have h3 : ((s.memWrite high).delay Config.tBitHighMin).memRead.1 = s.env.draw.1 := by
      show (Env.sample (Env.turn _ _)).1 = _
      rw [h2, turn_oracle h, sample_oracle h]
    have h4 : ((s.memWrite high).delay Config.tBitHighMin).sampleBit.env = s.env.draw.2 := by
      simp only [sampleBit_env, h2, turn_oracle h, sample_oracle h]
    have h5 : s.bitCycle.env = s.env.draw.2 := by
      have hc : s.env.draw.2.chip = none := by simp [h]
      simp only [State.bitCycle, memWrite_env, h4, turn_oracle hc, drive_oracle hc]
      exact ite_self _
    rw [h3, h5]

/-- `n` bit cycles: the levels they sampled are `bs` (R144). -/
theorem bitCycles_spec (n : Nat) (s : State) : ∃ bs e, bs.length = n ∧ State.bitCycles n s =
      { s with sck := if n = 0 then s.sck else low, acc := bs.foldl shiftIn s.acc, seq := s.seq.bumps (4 * n),
               trace := s.trace ++ bitsTrace s.clockPin s.dataPin bs, env := e } ∧
      (s.env.chip = none → (bs, e) = Env.drawN n s.env) := by
  induction n generalizing s with
  | zero => exact ⟨[], s.env, rfl, by simp [State.bitCycles, bitsTrace], fun _ => rfl⟩
  | succ n ih =>
    obtain ⟨b, e, h, hd⟩ := bitCycle_spec s
    obtain ⟨bs, e', hl, h', hd'⟩ := ih s.bitCycle
    refine ⟨b :: bs, e', by simp [hl], ?_, fun hc => ?_⟩
    · rw [State.bitCycles, h', h]
      simp [bitsTrace, Nat.mul_succ, Nat.add_comm]
    · have hd := hd hc
      rw [h] at hd'
      have hc' : e.chip = none := by
        have : e = s.env.draw.2 := congrArg Prod.snd hd
        simp [this, hc]
      have hd' := hd' hc'
      simp [Env.drawN, ← hd, ← hd']

/-- One selection pulse: no sample, and `ACC` stays (R146). -/
theorem selPulse_spec (s : State) : ∃ e, s.selPulse =
      { s with sck := low, seq := s.seq.bumps 4, trace := s.trace ++ selTrace s.clockPin 1, env := e } ∧
      (s.env.chip = none → e = s.env) := by
  refine ⟨s.selPulse.env, ?_, fun h => ?_⟩
  · refine state_ext ?_ ?_ ?_ ?_ ?_ ?_ ?_ ?_ ?_ ?_ ?_ ?_ ?_ ?_ ?_ <;> simp [State.selPulse, bump_eq, selTrace]
  · simp [State.selPulse, turn_oracle h, drive_oracle h, elapse_oracle h]

theorem selTrace_append (clock : PinId) (m n : Nat) : selTrace clock m ++ selTrace clock n = selTrace clock (m + n) := by
  induction m with
  | zero => simp [selTrace]
  | succ m ih => simp [selTrace, Nat.succ_add, ih]

/-- `n` selection pulses (R146). -/
theorem selPulses_spec (n : Nat) (s : State) : ∃ e, State.selPulses n s =
      { s with sck := if n = 0 then s.sck else low, seq := s.seq.bumps (4 * n),
               trace := s.trace ++ selTrace s.clockPin n, env := e } ∧
      (s.env.chip = none → e = s.env) := by
  induction n generalizing s with
  | zero => exact ⟨s.env, by simp [State.selPulses, selTrace], fun _ => rfl⟩
  | succ n ih =>
    obtain ⟨e, h, hd⟩ := selPulse_spec s
    obtain ⟨e', h', hd'⟩ := ih s.selPulse
    refine ⟨e', ?_, fun hc => ?_⟩
    · rw [State.selPulses, h', h]
      simp [selTrace_append, Nat.mul_succ, Nat.add_comm]
    · rw [h] at hd'
      rw [hd' (by simp [hd hc, hc]), hd hc]

/-- The body of `READ_RAW` (R142, R152): what it leaves in the block, before any environment and from any level of the
clock. -/
theorem readRawBody_spec (s : State) : ∃ bs e, bs.length = 24 ∧ s.readRawBody =
      { s with sck := low, acc := bs.foldl shiftIn 0#24, result := widen (bs.foldl shiftIn 0#24), seq := .idle,
               trace := s.trace ++ readTrace s.clockPin s.dataPin bs s.pulseCount.toNat,
               responses := s.responses ++ [widen (bs.foldl shiftIn 0#24)], env := e } ∧
      (s.env.chip = none → (bs, e) = Env.drawN 24 s.env) := by
  obtain ⟨bs, e, hl, h, hd⟩ := bitCycles_spec Config.dataBits (s.accept .readRaw)
  obtain ⟨e', h', hd'⟩ := selPulses_spec (State.bitCycles Config.dataBits (s.accept .readRaw)).pulseCount.toNat
    (State.bitCycles Config.dataBits (s.accept .readRaw))
  refine ⟨bs, e', hl, ?_, fun hc => ?_⟩
  · simp only [State.readRawBody, h', State.endRead]
    rw [h]
    refine state_ext ?_ ?_ ?_ ?_ ?_ ?_ ?_ ?_ ?_ ?_ ?_ ?_ ?_ ?_ ?_ <;> simp [readTrace, Config.dataBits]
  · have hd := hd (by simpa using hc)
    rw [h] at hd'
    have hc' : e.chip = none := by
      have hn : ∀ n (e : Env), (Env.drawN n e).2.chip = e.chip := by
        intro n
        induction n with
        | zero => exact fun e => rfl
        | succ n ih => intro e; simp [Env.drawN, ih]
      have : e = (Env.drawN Config.dataBits (s.accept .readRaw).env).2 := congrArg Prod.snd hd
      rw [this, hn]; simpa using hc
    rw [hd' hc']
    exact hd.trans (by rw [accept_env]; rfl)

/-- The samples shifted into `ACC` spell their pattern (R144, R151): 24 shifts leave nothing of what was there. -/
theorem foldl_shiftIn_toNat (bs : List Level) (a : Pattern) :
    (bs.foldl shiftIn a).toNat = (a.toNat * 2 ^ bs.length + patternValue bs) % 2 ^ 24 := by
  induction bs generalizing a with
  | nil => simp [patternValue, Nat.mod_eq_of_lt a.isLt]
  | cons b bs ih =>
    have hs : (shiftIn a b).toNat = (a.toNat * 2 + b.toNat) % 2 ^ 24 := by
      have hb : b.toNat < 2 := b.isLt
      simp only [shiftIn, BitVec.toNat_append, BitVec.extractLsb'_toNat, Nat.shiftRight_zero]
      rw [← Nat.shiftLeft_add_eq_or_of_lt (by simpa using hb), Nat.shiftLeft_eq]
      omega
    simp only [List.foldl_cons, ih, hs, patternValue, List.length_cons]
    conv_lhs => rw [Nat.add_mod, Nat.mul_mod, Nat.mod_mod, ← Nat.mul_mod, ← Nat.add_mod]
    congr 1
    ring

theorem patternValue_lt (bs : List Level) : patternValue bs < 2 ^ bs.length := by
  induction bs with
  | nil => simp [patternValue]
  | cons b bs ih =>
    have hb : b.toNat < 2 := b.isLt
    have : b.toNat * 2 ^ bs.length ≤ 1 * 2 ^ bs.length := Nat.mul_le_mul_right _ (by omega)
    simp only [patternValue, List.length_cons, Nat.pow_succ]
    omega

/-- `ACC` after 24 samples is the pattern they spell (R144). -/
theorem foldl_shiftIn_eq {bs : List Level} (h : bs.length = 24) (a : Pattern) :
    bs.foldl shiftIn a = BitVec.ofNat 24 (patternValue bs) := by
  apply BitVec.eq_of_toNat_eq
  have := patternValue_lt bs
  rw [foldl_shiftIn_toNat, BitVec.toNat_ofNat, h]
  omega

end Sys2Proof.Machine
end

