-- ==== Sys2Proof/Laws/Frame.lean ====
section
/-!
SUPPORT. The frame of a read on the reference chip (spec/20_memory.md R73, R74; spec/30_encoding.md R101): what one bit cycle
and one selection pulse make of a synchronised chip, and what the bit cycle samples.
-/

namespace Sys2Proof.Machine

open Sys2Proof

theorem tSelHigh_bounds : 2 ≤ Config.tSelHigh ∧ Config.tSelHigh < Config.tPdThresh := by
  have := Config.selHighAboveMin.isLt
  simp only [Config.tSelHigh, Config.tBitHighMin, Config.tPdThresh]
  omega

theorem pulseKind_first {s : State} (h : s.seq = .run .readRaw 0) : s.pulseKind = .first := by
  simp [State.pulseKind, h]

theorem pulseKind_later {s : State} {k : Nat} (h : s.seq = .run .readRaw k) (h0 : 0 < k) : s.pulseKind = .later := by
  obtain ⟨k, rfl⟩ := Nat.exists_eq_succ_of_ne_zero h0.ne'
  simp [State.pulseKind, h]

/-- The rising edge of a frame's pulse on a synchronised chip that is on is one more pulse, unless a read starts out of step
(R73, R81). -/
theorem drive_rise {c : Chip} (hp : c.power = .on) (hd : c.desync = false) (hh : c.highFor = none) {kind : PulseKind}
    (hk : kind ≠ .request) (hs : kind = .first → c.ready = true ∧ c.cnt = 0) :
    c.drive kind high = Chip.pulse { c with highFor := some 0 } := by
  cases kind with
  | first => simp [Chip.drive, Chip.rise, hp, hd, hh, hs rfl]
  | later => simp [Chip.drive, Chip.rise, hp, hd, hh]
  | request => exact absurd rfl hk

/-- The falling edge of a frame's pulse only ends the high (R78 needs a chip asleep, R81 a short hold). -/
theorem drive_fall {c : Chip} (hp : c.power = .on) {n : Nat} (hh : c.highFor = some n) (hn : 2 ≤ n) {kind : PulseKind}
    (hk : kind ≠ .request) : c.drive kind low = { c with highFor := none } := by
  have : ¬ n < Config.tBitHighMin := Nat.not_lt.mpr hn
  simp [Chip.drive, Chip.fall, hp, hh, this, hk]

/-- A hold below the threshold lets the chip stay on (R77). -/
theorem elapse_short {c : Chip} {m n : Nat} (hh : c.highFor = some m) (hn : m + n ≤ 60) :
    c.elapse n = { c with highFor := some (m + n) } := by
  have : ¬ Config.tPdThresh < m + n := Nat.not_lt.mpr hn
  simp [Chip.elapse, hh, this]

/-- The level of the clock high in a frame: the chip's turns change nothing. -/
theorem delay_env_of_high {s : State} {c : Chip} (h : s.env.chip = some c) (hh : c.highFor ≠ none) (n : Nat) :
    (s.delay n).env.chip = some (c.elapse n) := by
  simp [turn_of_high h hh]

theorem memWrite_env_of_high {s : State} {c : Chip} (h : s.env.chip = some c) (hh : c.highFor ≠ none)
    (hd : s.sckDir = .output) (v : Level) : (s.memWrite v).env.chip = some (c.drive s.pulseKind v) := by
  simp [turn_of_high h hh, hd]

/-- A definite chip answers a read itself, and the read leaves the chip alone (R55, R72). -/
theorem memRead_of_definite {s : State} {c : Chip} (h : s.env.chip = some c) (hh : c.highFor ≠ none)
    (hd : c.definite = true) : s.memRead.1 = c.dout ∧ s.memRead.2.env.chip = some c := by
  have ht := turn_of_high h hh s.midFrame
  refine ⟨?_, ?_⟩
  · show (Env.sample (s.env.turn s.midFrame)).1 = _
    simp [Env.sample, ht, hd]
  · simp [ht]

/-- One bit cycle before the reference chip: pulse `c.cnt + 1` brings data bit `23 - c.cnt`, which the block samples (R73).
`c` is the chip after its turn before the rising edge. -/
theorem bitCycle_chip {s : State} {c : Chip} (hdir : s.sckDir = .output) (h : (s.env.turn s.midFrame).chip = some c)
    (hp : c.power = .on) (hd : c.desync = false) (hh : c.highFor = none) (hr : c.ready = true) (hc : c.cnt < 24)
    (hq : s.seq = .run .readRaw (4 * c.cnt)) :
    s.bitCycle.env.chip = some { c with cnt := c.cnt + 1, dout := c.data.extractLsb' (23 - c.cnt) 1 } ∧
    s.bitCycle.acc = shiftIn s.acc (c.data.extractLsb' (23 - c.cnt) 1) := by
  have h1 : (s.memWrite high).env.chip =
      some { c with highFor := some 0, cnt := c.cnt + 1, dout := c.data.extractLsb' (23 - c.cnt) 1 } := by
    simp only [memWrite_env, hdir, if_true, drive_chip, h, Option.map_some]
    by_cases h0 : c.cnt = 0
    · rw [pulseKind_first (by rw [hq, h0]), drive_rise hp hd hh (by decide) (fun _ => ⟨hr, h0⟩)]
      simp [Chip.pulse, hr, hc]
    · rw [pulseKind_later hq (by omega), drive_rise (kind := .later) hp hd hh (by decide) nofun]
      simp [Chip.pulse, hr, hc]
  have h2 := delay_env_of_high h1 (by simp) Config.tBitHighMin
  rw [elapse_short (m := 0) rfl (by simp [Config.tBitHighMin])] at h2
  have h3 := memRead_of_definite h2 (by simp) (by simp [Chip.definite, hp, hd])
  have h4 : ((s.memWrite high).delay Config.tBitHighMin).sampleBit.env =
      ((s.memWrite high).delay Config.tBitHighMin).memRead.2.env := rfl
  refine ⟨?_, ?_⟩
  · have := memWrite_env_of_high (s := ((s.memWrite high).delay Config.tBitHighMin).sampleBit) (h4 ▸ h3.2) (by simp)
      (by simp [hdir]) low
    rw [pulseKind_later (k := 4 * c.cnt + 3) (by simp [hq, Seq.bump]) (by omega),
      drive_fall (by simpa using hp) rfl (by simp [Config.tBitHighMin]) (by decide)] at this
    simpa [State.bitCycle, hh] using this
  · simp only [State.bitCycle, memWrite_acc, sampleBit_acc, h3.1, delay_acc]

/-- One selection pulse before the reference chip, up to its falling edge: pulse `c.cnt + 1` of 25 to 27 (R74). -/
theorem selPulse_fall_chip {s : State} {c : Chip} (hdir : s.sckDir = .output)
    (h : (s.env.turn s.midFrame).chip = some c) (hp : c.power = .on) (hd : c.desync = false) (hh : c.highFor = none)
    (hc : 24 ≤ c.cnt ∧ c.cnt < 27) {k : Nat} (hq : s.seq = .run .readRaw k) (hk : 0 < k) :
    (((s.memWrite high).delay Config.tSelHigh).memWrite low).env.chip =
      some { c with cnt := c.cnt + 1, ready := if c.cnt = 24 then false else c.ready, dout := high } := by
  obtain ⟨hb, hb'⟩ := tSelHigh_bounds
  have hb' : Config.tSelHigh < 60 := hb'
  have h1 : (s.memWrite high).env.chip = some { c with
      highFor := some 0, cnt := c.cnt + 1, ready := if c.cnt = 24 then false else c.ready, dout := high } := by
    simp only [memWrite_env, hdir, if_true, drive_chip, h, Option.map_some]
    rw [pulseKind_later hq hk, drive_rise (kind := .later) hp hd hh (by decide) nofun]
    obtain ⟨h24, h27⟩ := hc
    have e0 : c.cnt ≠ 0 := by omega
    have e1 : ¬ c.cnt < 24 := by omega
    by_cases e : c.cnt = 24 <;> simp [Chip.pulse, e0, e1, e, h27]
  have h2 := delay_env_of_high h1 (by simp) Config.tSelHigh
  rw [elapse_short (m := 0) rfl (by omega)] at h2
  have := memWrite_env_of_high h2 (by simp) (by simp [hdir]) low
  rw [pulseKind_later (k := k + 2) (by simp [hq, Seq.bump]) (by omega),
    drive_fall (by simpa using hp) rfl (by omega) (by decide)] at this
  simpa [hh] using this

/-! ## The schedule: with a chip attached every event takes its entry -/

theorem convert_schedule (d : Pattern) (e : Env) : (e.convert d).schedule = e.schedule := by
  unfold Env.convert; split <;> rfl

theorem convertAll_schedule (ds : List Pattern) (e : Env) : (Env.convertAll ds e).schedule = e.schedule := by
  induction ds generalizing e with
  | nil => rfl
  | cons d ds ih => rw [Env.convertAll, ih, convert_schedule]

theorem sample_schedule (e : Env) : e.sample.2.schedule = e.schedule := by
  unfold Env.sample; split
  · exact draw_schedule e
  · split
    · rfl
    · exact draw_schedule e

theorem turn_schedule {e : Env} (h : e.chip.isSome) (mid : Bool) : (e.turn mid).schedule = e.schedule.drop 1 := by
  obtain ⟨c, hc⟩ := Option.isSome_iff_exists.mp h
  cases hs : e.schedule with
  | nil => simp [Env.turn, hs]
  | cons ds rest => cases mid <;> simp [Env.turn, hc, hs, convertAll_schedule]

/-- A chip is attached and `n` events have taken their entries since the environment was `e`. -/
def Env.took (n : Nat) (e f : Env) : Prop := f.chip.isSome ∧ f.schedule = e.schedule.drop n

theorem took_zero {e : Env} (h : e.chip.isSome) : e.took 0 e := ⟨h, rfl⟩

theorem took_turn {n : Nat} {e f : Env} (h : e.took n f) (mid : Bool) : e.took (n + 1) (f.turn mid) :=
  ⟨by rw [turn_isSome]; exact h.1, by rw [turn_schedule h.1, h.2, List.drop_drop]⟩

theorem took_memWrite {n : Nat} {e : Env} {s : State} (h : e.took n s.env) (v : Level) :
    e.took (n + 1) (s.memWrite v).env := by
  obtain ⟨h1, h2⟩ := took_turn h s.midFrame
  rw [memWrite_env]
  split
  · exact ⟨by simpa using h1, h2⟩
  · exact ⟨h1, h2⟩

theorem took_delay {n : Nat} {e : Env} {s : State} (h : e.took n s.env) (d : Nat) : e.took (n + 1) (s.delay d).env := by
  obtain ⟨h1, h2⟩ := took_turn h s.midFrame
  rw [delay_env]
  exact ⟨by simpa using h1, h2⟩

theorem took_sampleBit {n : Nat} {e : Env} {s : State} (h : e.took n s.env) : e.took (n + 1) s.sampleBit.env := by
  obtain ⟨h1, h2⟩ := took_turn h s.midFrame
  rw [sampleBit_env]
  exact ⟨by simpa using h1, by rw [sample_schedule, h2]⟩

theorem took_bitCycles {e : Env} (m : Nat) :
    ∀ (n : Nat) (s : State), e.took n s.env → e.took (n + 4 * m) (State.bitCycles m s).env := by
  induction m with
  | zero => exact fun n s h => h
  | succ m ih =>
    intro n s h
    have := ih (n + 4) s.bitCycle (took_memWrite (took_sampleBit (took_delay (took_memWrite h high) _)) low)
    rwa [show n + 4 * (m + 1) = n + 4 + 4 * m by omega]

/-- The next data bit shifted into the data bits before it (R58, R144). -/
theorem bit_step (d : Pattern) (p : Nat) (hp : p < 24) :
    shiftIn (d >>> (24 - p)) (d.extractLsb' (23 - p) 1) = d >>> (24 - (p + 1)) := by
  apply BitVec.eq_of_toNat_eq
  have hd := d.isLt
  simp only [shiftIn, BitVec.toNat_append, BitVec.extractLsb'_toNat, BitVec.toNat_ushiftRight, Nat.shiftRight_zero]
  rw [← Nat.shiftLeft_add_eq_or_of_lt (by exact Nat.mod_lt _ (by decide)), Nat.shiftLeft_eq]
  have e1 : d.toNat >>> (24 - p) = (d.toNat >>> (23 - p)) / 2 := by
    have : 24 - p = (23 - p) + 1 := by omega
    rw [this, Nat.shiftRight_succ]
  have e2 : 24 - (p + 1) = 23 - p := by omega
  rw [e1, e2]
  have : d.toNat >>> (23 - p) < 2 ^ 24 := lt_of_le_of_lt (Nat.shiftRight_le _ _) hd
  generalize d.toNat >>> (23 - p) = x at *
  omega

theorem midFrame_of {s : State} {k : Nat} (h : s.seq = .run .readRaw k) (h0 : 0 < k)
    (h1 : k < 95 + 4 * s.pulseCount.toNat) : s.midFrame = true := by
  simp [State.midFrame, h, h0, h1]

theorem pulseCount_pos {n : BitVec 2} (h : n ≠ 0#2) : 1 ≤ n.toNat ∧ n.toNat ≤ 3 := by
  revert h; revert n; decide

theorem bitCycle_seq (s : State) : s.bitCycle.seq = s.seq.bumps 4 := by
  obtain ⟨b, e, h, _⟩ := bitCycle_spec s; rw [h]

/-- The bit cycles from pulse `p + 1` on: `ACC` ends as the conversion on offer (R73, R144). -/
theorem bitCycles_chip (m : Nat) : ∀ (p : Nat) (s : State) (c : Chip), p + m = 24 → s.sckDir = .output →
    s.pulseCount ≠ 0#2 → s.seq = .run .readRaw (4 * p) → (s.env.turn s.midFrame).chip = some c → c.power = .on →
    c.desync = false →
    c.highFor = none → c.ready = true → c.cnt = p → s.acc = c.data >>> (24 - p) →
    ∃ b, ((State.bitCycles m s).env.turn (State.bitCycles m s).midFrame).chip = some { c with cnt := 24, dout := b } ∧
      (State.bitCycles m s).acc = c.data := by
  induction m with
  | zero =>
    intro p s c hp hdir hn hq h h1 h2 h3 h4 h5 h6
    refine ⟨c.dout, ?_, ?_⟩
    · rw [State.bitCycles, h]; cases c; simp_all
    · rw [State.bitCycles, h6]; simp [show 24 - p = 0 by omega]
  | succ m ih =>
    intro p s c hp hdir hn hq h h1 h2 h3 h4 h5 h6
    obtain ⟨hb, ha⟩ := bitCycle_chip hdir h h1 h2 h3 h4 (by omega) (by rw [hq, h5])
    obtain ⟨b0, e0, hs, -⟩ := bitCycle_spec s
    have f1 : s.bitCycle.seq = .run .readRaw (4 * (p + 1)) := by
      rw [bitCycle_seq, hq, bumps_run]; congr 1
    have f2 : s.bitCycle.pulseCount = s.pulseCount := by rw [hs]
    have f3 : s.bitCycle.sckDir = .output := by rw [hs]; exact hdir
    have f4 : s.bitCycle.midFrame = true := midFrame_of f1 (by omega) (by
      rw [f2]; have := pulseCount_pos hn; omega)
    obtain ⟨b, hb', ha'⟩ := ih (p + 1) s.bitCycle
      { c with cnt := c.cnt + 1, dout := c.data.extractLsb' (23 - c.cnt) 1 } (by omega) f3 (by rw [f2]; exact hn) f1
      (by rw [f4, turn_midFrame]; exact hb) h1 h2 h3 h4 (by simp [h5]) (by
        rw [ha, h6, h5]; exact bit_step _ _ (by omega))
    exact ⟨b, hb', ha'⟩

/-- `n` selection pulses to the end of the frame.  The chip's turn before the last hold may already be a conversion, so its state
there is given before that turn. -/
theorem selPulses_chip (m : Nat) : ∀ (p : Nat) (s : State) (c : Chip), 24 ≤ p → 1 ≤ m →
    p + m = 24 + s.pulseCount.toNat → p + m ≤ 27 →
    s.sckDir = .output → s.seq = .run .readRaw (4 * p) → s.env.chip = some c → c.power = .on → c.desync = false →
    c.highFor = none → c.cnt = p → (p ≠ 24 → c.ready = false) →
    ∃ e : Env, e.chip = some { c with cnt := p + m, ready := false, dout := high } ∧
      (State.selPulses m s).env.chip = (e.turn false).chip ∧
      ∀ f n, Env.took n f s.env → f.took (n + 4 * m - 1) e := by
  induction m with
  | zero => intro p s c hp hm; omega
  | succ m ih =>
    intro p s c hp hm hn h27 hdir hq h h1 h2 h3 h4 h5
    have g0 : s.midFrame = true := midFrame_of hq (by omega) (by omega)
    have hf := selPulse_fall_chip hdir (by rw [g0, turn_midFrame]; exact h) h1 h2 h3 (by omega) hq (by omega)
    have hq' : (((s.memWrite high).delay Config.tSelHigh).memWrite low).seq = .run .readRaw (4 * p + 3) := by
      simp [hq, Seq.bump]
    have hr : (if c.cnt = 24 then false else c.ready) = false := by
      split
      · rfl
      · exact h5 (by omega)
    rw [hr] at hf
    have hsch : ∀ f n, Env.took n f s.env →
        f.took (n + 3) (((s.memWrite high).delay Config.tSelHigh).memWrite low).env :=
      fun f n h => took_memWrite (took_delay (took_memWrite h high) _) low
    generalize hu : ((s.memWrite high).delay Config.tSelHigh).memWrite low = u at hf hq' hsch
    have hpc : u.pulseCount = s.pulseCount := by rw [← hu]; simp
    have hsel : s.selPulse = u.delay Config.tSelLow := by rw [← hu]; rfl
    have hlow : ∀ (e : Env) (n : Nat), (∀ d, e.chip = some d → d.highFor = none) → (e.elapse n).chip = e.chip := by
      intro e n hd
      cases he : e.chip with
      | none => simp [he]
      | some d => simp [he, Chip.elapse, hd d he]
    have hlow' : ∀ mid d, (u.env.turn mid).chip = some d → d.highFor = none := by
      intro mid
      refine turn_keeps (fun d => d.highFor = none) ?_ u.env mid ?_
      · intro tag d c hc
        unfold Chip.newConversion
        split
        · exact hc
        · split <;> exact hc
      · intro d hd; rw [hf] at hd; cases hd; exact h3
    have henv : (u.delay Config.tSelLow).env.chip = (u.env.turn u.midFrame).chip := by
      rw [delay_env]; exact hlow _ _ (hlow' _)
    by_cases hm0 : m = 0
    · subst hm0
      have hmid : u.midFrame = false := by
        simp [State.midFrame, hq']; rw [hpc]; omega
      refine ⟨u.env, ?_, ?_, fun f n h => hsch f n h⟩
      · rw [hf]; simp [h4]
      · rw [State.selPulses, State.selPulses, hsel, henv, hmid]
    · have hmid : u.midFrame = true := midFrame_of hq' (by omega) (by rw [hpc]; omega)
      have hc' : s.selPulse.env.chip = some { c with cnt := c.cnt + 1, ready := false, dout := high } := by
        rw [hsel, henv, hmid, turn_midFrame, hf]
      obtain ⟨e0, hs, -⟩ := selPulse_spec s
      obtain ⟨e, he, he', he''⟩ := ih (p + 1) s.selPulse _ (by omega) (by omega)
        (by rw [hs]; show _ = 24 + s.pulseCount.toNat; omega) (by omega) (by rw [hs]; exact hdir)
        (by rw [hs]; simp [hq]; omega) hc' h1 h2 h3 (by simp [h4]) (by simp)
      refine ⟨e, ?_, ?_, ?_⟩
      · rw [he]; simp; omega
      · rw [State.selPulses]; exact he'
      · intro f n h
        have := he'' f (n + 4) (by rw [hsel]; exact took_delay (hsch f n h) _)
        rwa [show n + 4 + 4 * m - 1 = n + 4 * (m + 1) - 1 by omega] at this

/-- A read that starts in step with the reference chip (R73, R74, R101): the response is the conversion on offer, and the
chip ends with a whole frame counted. `c` is the chip after its turn before the first rising edge. -/
theorem readRawBody_chip {s : State} {c : Chip} (hdir : s.sckDir = .output) (hn : s.pulseCount ≠ 0#2)
    (h : (s.env.turn false).chip = some c) (hp : c.power = .on) (hd : c.desync = false) (hh : c.highFor = none)
    (hr : c.ready = true) (hc : c.cnt = 0) :
    s.readRawBody.result = widen c.data ∧
    ∃ e : Env, e.chip = some { c with cnt := 24 + s.pulseCount.toNat, ready := false, dout := high } ∧
      s.readRawBody.env.chip = (e.turn false).chip ∧
      e.schedule = s.env.schedule.drop (95 + 4 * s.pulseCount.toNat) := by
  have hpc := pulseCount_pos hn
  obtain ⟨b, h1, h2⟩ := bitCycles_chip 24 0 (s.accept .readRaw) c rfl (by simpa using hdir) (by simpa using hn)
    (by simp) (by simpa [State.midFrame] using h) hp hd hh hr hc (by
      apply BitVec.eq_of_toNat_eq
      have := c.data.isLt
      simp [Nat.shiftRight_eq_div_pow]; omega)
  obtain ⟨bs, e1, hl, hs1, -⟩ := bitCycles_spec 24 (s.accept .readRaw)
  have hsch : Env.took 96 s.env (State.bitCycles 24 (s.accept .readRaw)).env := by
    have hi : s.env.chip.isSome := by rw [← turn_isSome s.env false, h]; rfl
    exact took_bitCycles 24 0 (s.accept .readRaw) (by rw [accept_env]; exact took_zero hi)
  generalize hu : State.bitCycles 24 (s.accept .readRaw) = u at h1 h2 hs1 hsch
  have f1 : u.seq = .run .readRaw 96 := by rw [hs1]; simp
  have f2 : u.pulseCount = s.pulseCount := by rw [hs1]; simp
  have f3 : u.midFrame = true := midFrame_of f1 (by omega) (by rw [f2]; omega)
  rw [f3, turn_midFrame] at h1
  obtain ⟨e, he, he', he''⟩ := selPulses_chip u.pulseCount.toNat 24 u _ (by omega) (by rw [f2]; omega) (by rfl)
    (by rw [f2]; omega) (by rw [hs1]; simpa using hdir) (by rw [f1]) h1 hp hd hh rfl (by simp)
  obtain ⟨e2, hs2, -⟩ := selPulses_spec u.pulseCount.toNat u
  refine ⟨?_, e, ?_, ?_, ?_⟩
  · show widen (State.selPulses (State.bitCycles Config.dataBits (s.accept .readRaw)).pulseCount.toNat
      (State.bitCycles Config.dataBits (s.accept .readRaw))).acc = _
    rw [show State.bitCycles Config.dataBits (s.accept .readRaw) = u from hu, hs2]; simp [h2]
  · rw [he, f2]
  · show (State.selPulses (State.bitCycles Config.dataBits (s.accept .readRaw)).pulseCount.toNat
      (State.bitCycles Config.dataBits (s.accept .readRaw))).env.chip = _
    rw [show State.bitCycles Config.dataBits (s.accept .readRaw) = u from hu]; exact he'
  · rw [(he'' _ _ hsch).2, f2]; congr 1; omega

end Sys2Proof.Machine
end

