-- ==== Sys2Proof/Laws/PerInstr.lean ====
section
/-!
SUPPORT. Statements for all commands, one lemma per constructor.  Family `CodeWord`: the word of a well-formed command keeps its
reserved bits 0 and carries the command's operation code (spec/30_encoding.md R91, R94).
-/

namespace Sys2Proof.Laws.CodeWord

open Sys2Proof

/-- The command's word keeps its reserved bits 0 and carries the command's operation code (R91, R94). -/
def Statement (i : Instr) : Prop :=
  i.wellFormed = true → rsvField (encode i) = 0#4 ∧
    opField (encode i) = (match i with
      | .setup => 1#4
      | .setGain _ => 2#4
      | .isReady => 3#4
      | .readRaw => 4#4
      | .powerDown => 5#4
      | .powerUp => 6#4)

theorem setup : Statement .setup := fun _ => by decide

theorem setGain (sel : Nat) : Statement (.setGain sel) := by
  intro h
  have hs : sel < 256 := by simpa [Instr.wellFormed] using h
  refine ⟨?_, ?_⟩ <;> apply BitVec.eq_of_toNat_eq <;>
    simp [encode, rsvField, opField, Nat.shiftRight_eq_div_pow] <;> omega

theorem isReady : Statement .isReady := fun _ => by decide

theorem readRaw : Statement .readRaw := fun _ => by decide

theorem powerDown : Statement .powerDown := fun _ => by decide

theorem powerUp : Statement .powerUp := fun _ => by decide

end Sys2Proof.Laws.CodeWord
end

