-- ==== Sys2Proof/Laws/Product.lean ====
section
/-!
SUPPORT. What a step of several blocks can answer (spec/60_exceptions.md R202): a next state exactly when the block in question
has one, and then that block alone is replaced.
-/

namespace Sys2Proof.Machine

open Sys2Proof

/-- The one inversion lemma for `stepAt`. -/
theorem stepAt_next {n : Nat} {ms ts : List State} :
    stepAt n ms = some (.next ts) ↔ ∃ s t, ms[n]? = some s ∧ step s = .next t ∧ ts = ms.set n t := by
  induction ms generalizing n ts with
  | nil => simp [stepAt]
  | cons m ms ih =>
    cases n with
    | zero =>
      simp only [stepAt]
      cases h : step m <;> simp [h, eq_comm]
    | succ n =>
      have ih := @ih n
      simp only [stepAt]
      cases h : stepAt n ms with
      | none => simp [h] at ih ⊢; exact fun x hx t ht => (ih x hx t ht rfl).elim
      | some o =>
        cases o with
        | next us =>
          simp only [h, Option.some.injEq, Host.Outcome.next.injEq, List.getElem?_cons_succ, List.set_cons_succ] at ih ⊢
          constructor
          · rintro rfl
            obtain ⟨s, t, h1, h2, h3⟩ := ih.mp rfl
            exact ⟨s, t, h1, h2, by rw [h3]⟩
          · rintro ⟨s, t, h1, h2, rfl⟩
            rw [ih.mpr ⟨s, t, h1, h2, rfl⟩]
        | fault r => simp [h] at ih ⊢; exact fun x hx t ht => (ih x hx t ht rfl).elim
        | refused r => simp [h] at ih ⊢; exact fun x hx t ht => (ih x hx t ht rfl).elim

/-- And for `stepOne`: the blocks have their own pins, too (R63). -/
theorem stepOne_next {n : Nat} {ms ts : List State} : stepOne n ms = some (.next ts) ↔
    ownPins ms = true ∧ ∃ s t, ms[n]? = some s ∧ step s = .next t ∧ ts = ms.set n t := by
  unfold stepOne
  split <;> simp [*, stepAt_next]

end Sys2Proof.Machine
end

