-- ==== Sys2Proof/Machine/Assembler.lean ====
section
/-!
DEFINITION. The text of a command stream (spec/30_encoding.md R105): one command a line, the mnemonic in capitals, for
`SET_GAIN` one operand after a space, decimal or `0x` hexadecimal from 0 to 255 or the name of a selection; `;` starts a
comment and `->` a response.  Lines are lists of characters, so that the kernel can read them.
DESIGN CHOICE (notes/assumptions/22.md), safe: several spaces and either case of hexadecimal digits are taken.
-/

namespace Sys2Proof.Machine

open Sys2Proof

/-- The mnemonic of a command (R94). -/
def mnemonicOf : Instr → String
  | .setup => "SETUP"
  | .setGain _ => "SET_GAIN"
  | .isReady => "IS_READY"
  | .readRaw => "READ_RAW"
  | .powerDown => "POWER_DOWN"
  | .powerUp => "POWER_UP"

/-- The line without its comment and without the response written after it. -/
def stripLine : List Char → List Char
  | [] => []
  | ';' :: _ => []
  | '-' :: '>' :: _ => []
  | c :: cs => c :: stripLine cs

/-- The words of a line, split at spaces; `word` holds the letters of the word under way. -/
def wordsOf (word : List Char) : List Char → List (List Char)
  | [] => if word = [] then [] else [word]
  | c :: cs =>
    if c = ' ' then (if word = [] then wordsOf [] cs else word :: wordsOf [] cs)
    else wordsOf (word ++ [c]) cs

/-- The value of a digit in the given base. -/
def digitOf (base : Nat) (c : Char) : Option Nat :=
  let n := c.toNat
  let d :=
    if 48 ≤ n ∧ n ≤ 57 then some (n - 48)
    else if 65 ≤ n ∧ n ≤ 70 then some (n - 55)
    else if 97 ≤ n ∧ n ≤ 102 then some (n - 87)
    else none
  match d with
  | some v => if v < base then some v else none
  | none => none

/-- The number that digits spell, continuing from `sofar`. -/
def digitsFrom (base sofar : Nat) : List Char → Option Nat
  | [] => some sofar
  | c :: cs =>
    match digitOf base c with
    | some d => digitsFrom base (sofar * base + d) cs
    | none => none

/-- A number, decimal or `0x` hexadecimal, with at least one digit. -/
def numberOf : List Char → Option Nat
  | [] => none
  | '0' :: 'x' :: [] => none
  | '0' :: 'x' :: cs => digitsFrom 16 0 cs
  | cs => digitsFrom 10 0 cs

/-- The operand of `SET_GAIN`: a name of a selection or a number from 0 to 255. -/
def operandOf (cs : List Char) : Option Nat :=
  if cs = ['A', '1', '2', '8'] then some (gainOf .a128)
  else if cs = ['B', '3', '2'] then some (gainOf .b32)
  else if cs = ['A', '6', '4'] then some (gainOf .a64)
  else match numberOf cs with
    | some n => if n < 256 then some n else none
    | none => none

/-- The command that a line's words spell. -/
def commandOfWords : List (List Char) → Option Instr
  | [m] =>
    if m = "SETUP".toList then some .setup
    else if m = "IS_READY".toList then some .isReady
    else if m = "READ_RAW".toList then some .readRaw
    else if m = "POWER_DOWN".toList then some .powerDown
    else if m = "POWER_UP".toList then some .powerUp
    else none
  | [m, operand] =>
    if m = "SET_GAIN".toList then
      match operandOf operand with
      | some sel => some (.setGain sel)
      | none => none
    else none
  | _ => none

/-- The command on one line of a command stream; `none` for an empty line and for text that is no command. -/
def assembleLine (line : List Char) : Option Instr := commandOfWords (wordsOf [] (stripLine line))

end Sys2Proof.Machine
end

