-- ==== Sys2Proof/Tests/Slice0.lean ====
section
/-!
SUPPORT. The model's own tests, with expected values from spec/95_test_vectors.md (T1 to T10, tables 2.1 to 2.8, programs P1 to
P5), and for each statement with hypotheses a witness that meets them.
-/

namespace Sys2Proof.Tests

open Sys2Proof Sys2Proof.Machine

/-! ## Small states -/

/-- A block just constructed with pins 0 and 1, before a free oracle that will answer `answers`. -/
def fresh (n : BitVec 2) (answers : List Level) : State :=
  State.constructed ⟨0⟩ ⟨1⟩ n { Env.free with answers := answers }

/-- The same block after `SETUP`, its trace and responses left empty. -/
def active (n : BitVec 2) (answers : List Level) : State :=
  { fresh n answers with sckDir := .output, doutDir := .input, setupDone := true, power := .active }

/-- The same block powered down. -/
def down (n : BitVec 2) (answers : List Level) : State := { active n answers with power := .down, sck := high }

/-- A reference chip that is on and synchronised, the clock line low. -/
def chipOn (sel : Selection) (data : Pattern) (ready : Bool) (cnt : Nat) (dout : Level) : Chip :=
  { power := .on, sel := sel, data := data, dataSel := sel, ready := ready, cnt := cnt, dout := dout, highFor := none,
    desync := false }

/-- A reference chip asleep with the clock line high. -/
def chipAsleep : Chip := { chipOn .b32 0#24 false 0 high with power := .asleep, highFor := some 100 }

/-- A state before a reference chip. -/
def before (c : Chip) (s : State) : State := { s with env := { s.env with chip := some c } }

/-- A ready chip, its last poll answered 1, and a read offered. -/
def polled : State :=
  before (chipOn .a128 0x123456#24 true 0 low) { active 1#2 [] with trace := [.rd ⟨1⟩ low], responses := [1#32] }

/-- The block `polled` with one more conversion scheduled for the chip's last turn in the frame of a read. -/
def polledScheduled : State :=
  { polled with env := { polled.env with schedule := List.replicate 99 [] ++ [[0x654321#24]] } }

/-- The next state of an outcome, if it is one. -/
def nextOf (o : Result) : Option State :=
  match o with
  | .next t => some t
  | .fault _ => none
  | .refused _ => none

/-- The 24 samples that spell a pattern, the most significant first (R58). -/
def spell (p : Pattern) : List Level := (List.range 24).map fun i => p.extractLsb' (23 - i) 1

/-! ## Well-formedness and decoding -/

/-- The one check of `wellFormed`: an operand that does not fit `imm8` (R95). -/
theorem test_wellFormed_refuses_256 : (Instr.setGain 256).wellFormed = false := by decide

theorem test_wellFormed_takes_255 : (Instr.setGain 255).wellFormed = true := by decide

/-- Table 2.1, the legal words, bit by bit from R91: `op`, `rsv`, `imm8`. -/
theorem test_decode_legal :
    decode 0b0001000000000000#16 = .ok .setup ∧ decode 0b0010000010000000#16 = .ok (.setGain 128) ∧
    decode 0b0010000000100000#16 = .ok (.setGain 32) ∧ decode 0b0010000001000000#16 = .ok (.setGain 64) ∧
    decode 0x2000#16 = .ok (.setGain 0) ∧ decode 0x20A0#16 = .ok (.setGain 160) ∧ decode 0x20FF#16 = .ok (.setGain 255) ∧
    decode 0b0011000000000000#16 = .ok .isReady ∧ decode 0b0100000000000000#16 = .ok .readRaw ∧
    decode 0b0101000000000000#16 = .ok .powerDown ∧ decode 0b0110000000000000#16 = .ok .powerUp := by decide

/-- Table 2.1, the illegal words. -/
theorem test_decode_illegal :
    decode 0x2180#16 = .error .reservedBits ∧ decode 0x3001#16 = .error .operandBits ∧
    decode 0x4F00#16 = .error .reservedBits ∧ decode 0x0000#16 = .error .unknownOp ∧
    decode 0x7000#16 = .error .unknownOp ∧ decode 0xF000#16 = .error .unknownOp ∧
    decode 0xFFFF#16 = .error .reservedBits := by decide

/-- The match words of spec/opcode_table.json. -/
theorem test_decodeTableWord :
    decodeTableWord 16 0x1000 = some .setup ∧ decodeTableWord 16 0x2000 = some (.setGain 0) ∧
    decodeTableWord 16 0x3000 = some .isReady ∧ decodeTableWord 16 0x4000 = some .readRaw ∧
    decodeTableWord 16 0x5000 = some .powerDown ∧ decodeTableWord 16 0x6000 = some .powerUp := by decide

/-- R94: the word column. -/
theorem test_encode :
    [Instr.setup, .setGain 128, .isReady, .readRaw, .powerDown, .powerUp].map encode =
      [0x1000#16, 0x2080#16, 0x3000#16, 0x4000#16, 0x5000#16, 0x6000#16] := by decide

/-- R105: names and numbers of selections, comments and responses. -/
theorem test_assembler_operands :
    assembleLine "SET_GAIN A64 ; three pulses".toList = some (.setGain 64) ∧
    assembleLine "  SET_GAIN 0x20".toList = some (.setGain 32) ∧
    assembleLine "SET_GAIN 256".toList = none := by decide

theorem test_assembler_response : assembleLine "IS_READY -> 1".toList = some .isReady := by decide

/-! ## The commands -/

/-- Table 2.2, first row. -/
theorem test_setup_trace : (nextOf (exec .setup (fresh 1#2 []))).map (·.trace) =
    some [.cfg ⟨0⟩ .output, .cfg ⟨1⟩ .input, .wr ⟨0⟩ 1#1, .dly 100, .wr ⟨0⟩ 0#1] := by decide

/-- P5(b). -/
theorem test_setup_twice : exec .setup (active 1#2 []) = .refused .setupRepeated := rfl

/-- R130, table 2.2: the order is 128, 32, 64 to 1, 2, 3. -/
theorem test_setGain_counts : [128, 32, 64].map (fun g => (nextOf (exec (.setGain g) (fresh 1#2 []))).map (·.pulseCount)) =
    [some 1#2, some 2#2, some 3#2] := by decide

/-- Table 2.1: the operand is a gain, neither a pulse count nor a bit mask. -/
theorem test_setGain_illegal : exec (.setGain 1) (fresh 1#2 []) = .fault .undefinedSelection ∧
    exec (.setGain 160) (fresh 1#2 []) = .fault .undefinedSelection := ⟨rfl, rfl⟩

/-- Table 2.5: a low line answers 1, with one event. -/
theorem test_isReady_low : (nextOf (exec .isReady (active 1#2 [0#1]))).map (fun t => (t.responses, t.trace)) =
    some ([1#32], [.rd ⟨1⟩ 0#1]) := by decide

/-- Table 2.5: a high line answers 0. -/
theorem test_isReady_high : (nextOf (exec .isReady (active 1#2 [1#1]))).map (·.responses) = some [0#32] := by decide

/-- Table 2.3, row 0x876543. -/
theorem test_readRaw_negative :
    (nextOf (exec .readRaw (active 1#2 (spell 0x876543#24)))).map (·.result) = some 0xFF876543#32 := by decide +kernel

/-- Table 2.4, last row: 27 pulses, 108 events. -/
theorem test_readRaw_pulses :
    (nextOf (exec .readRaw (active 3#2 (spell 0#24)))).map (fun t => (pulses ⟨0⟩ low t.trace, t.trace.length)) =
      some (27, 108) := by decide +kernel

/-- Table 2.7, first row. -/
theorem test_powerDown : (nextOf (exec .powerDown (active 1#2 []))).map (fun t => (t.trace, t.sck, t.power)) =
    some ([.wr ⟨0⟩ 1#1, .dly 100], 1#1, .down) := by decide

/-- P5(d): a read after `POWER_DOWN`. -/
theorem test_readRaw_down : exec .readRaw (down 1#2 []) = .refused .clockNotLow := rfl

/-- Table 2.7, third row. -/
theorem test_powerUp : (nextOf (exec .powerUp (down 1#2 []))).map (fun t => (t.trace, t.sck, t.power)) =
    some ([.wr ⟨0⟩ 0#1], 0#1, .active) := by decide

/-- Table 2.7, third row: the chip is reset to A128 and not ready. -/
theorem test_powerUp_wakes : (nextOf (exec .powerUp (before chipAsleep (down 1#2 [])))).map (·.env.chip) =
    some (some (chipOn .a128 0#24 false 0 high |> fun c => { c with dataSel := .b32 })) := by decide

/-! ## The reference chip and the observer -/

/-- Program P1: the conversion 0x123456 completes before the read's first event. -/
theorem test_chip_read : (nextOf (exec .readRaw
    { before (chipOn .a128 0#24 false 0 high) (active 1#2 []) with
      env := { Env.free with chip := some (chipOn .a128 0#24 false 0 high), schedule := [[0x123456#24]] } })).map
    (·.result) = some 0x00123456#32 := by decide +kernel

/-- Table 2.8: a frame of 26 pulses latches B32 at the next conversion. -/
theorem test_chip_latch : (chipOn .a128 0#24 false 26 high).newConversion .a64 5#24 = chipOn .b32 5#24 true 0 low := by decide

/-- R103, R223: the high of `POWER_DOWN` is no pulse, so a chip that is not ready sleeps and is not desynchronised. -/
theorem test_powerDown_not_ready :
    (nextOf (exec .powerDown (before (chipOn .a64 0#24 false 27 high) (active 3#2 [])))).map
      (fun t => t.env.chip.map fun c => (c.power, c.desync)) = some (some (.asleep, false)) := by decide

/-- Section 2.7: `POWER_DOWN`, `POWER_DOWN`, `POWER_UP` is one long pulse. -/
theorem test_pulses_power : pulses ⟨0⟩ low [.wr ⟨0⟩ high, .dly 100, .wr ⟨0⟩ high, .dly 100, .wr ⟨0⟩ low] = 1 := by decide

/-- T1 to T4: the worked examples of the sign extension. -/
theorem test_widen : [0x7FFFFF#24, 0x800000#24, 0xFFFFFF#24, 0x000000#24].map (fun a => (widen a).toInt) =
    [8388607, -8388608, -1, 0] := by decide

/-- R151 on 0xABCDEF, table 2.3. -/
theorem test_readingOf : readingOf (spell 0xABCDEF#24) = -5517841 := by decide

/-! ## Reset and construction -/

/-- The first command after reset that the caller's contract allows. -/
theorem test_setup_runs_from_reset : (match step (State.reset.withFetchWord 16 0x1000) with
    | .next t => t.setupDone
    | .fault _ => false
    | .refused _ => false) = true := rfl

/-- R221, table 2.2 last row. -/
theorem test_construct_illegal : State.construct ⟨0⟩ ⟨1⟩ 7 Env.free = .fault .undefinedSelection := rfl

/-- U16, D28: two blocks on one data pin. -/
theorem test_stepOne_shared_pin :
    stepOne 0 [fresh 1#2 [], { fresh 2#2 [] with clockPin := ⟨2⟩ }] = some (.refused .pinsShared) := rfl

/-- U16: one pin for both lines. -/
theorem test_construct_one_pin : State.construct ⟨0⟩ ⟨0⟩ 128 Env.free = .refused .pinsShared := rfl

/-- P5(e). -/
theorem test_step_illegal : step ((active 1#2 []).withFetchWord 16 0) = .refused .illegalCommand := rfl

/-! ## Witnesses: states and operands that meet the hypotheses of the statements -/

/-- An idle block with a legal word and one with an illegal word offered. -/
theorem witness_IllegalWordsRefused :
    ((active 1#2 []).withFetchWord 16 0x7000).seq = .idle ∧
    ((active 1#2 []).withFetchWord 16 0x7000).commands = [0x7000#16] ∧ 7 ≤ (opField 0x7000#16).toNat ∧
    opField 0x6000#16 = 6#4 ∧ rsvField 0x6000#16 = 0#4 ∧ imm8Field 0x6000#16 = 0#8 := by decide

theorem witness_DecodeAndEncodeAgree :
    rsvField 0x2180#16 ≠ 0#4 ∧ (rsvField 0x20FF#16 = 0#4 ∧ opField 0x20FF#16 = 2#4) ∧
    (rsvField 0x3001#16 = 0#4 ∧ opField 0x3001#16 ≠ 2#4 ∧ imm8Field 0x3001#16 ≠ 0#8) ∧
    (rsvField 0x7000#16 = 0#4 ∧ imm8Field 0x7000#16 = 0#8 ∧ opField 0x7000#16 ∉ [1#4, 2#4, 3#4, 4#4, 5#4, 6#4]) ∧
    (opField 0x1000#16 = 1#4 ∧ opField 0x3000#16 = 3#4 ∧ opField 0x4000#16 = 4#4 ∧ opField 0x5000#16 = 5#4 ∧
      opField 0x6000#16 = 6#4) ∧
    (Instr.setGain 255).wellFormed = true ∧ decode 0x20FF#16 = .ok (.setGain 255) := by decide

theorem witness_StepRunsDecodedCommand :
    ((fresh 1#2 []).withFetchWord 16 0x1000).seq = .idle ∧
    ((fresh 1#2 []).withFetchWord 16 0x1000).commands = [0x1000#16] ∧ decode 0x1000#16 = .ok .setup := by decide

theorem witness_PlacedWordRuns : decodeTableWord 16 0x20FF = some (.setGain 255) := by decide

theorem witness_IdleBlockWaits :
    (fresh 1#2 []).seq = .idle ∧ (fresh 1#2 []).commands = [] ∧ (fresh 1#2 []).env.chip = none := by decide

/-- A block in the middle of a read, and the step it takes there. -/
theorem witness_BusyBlockAcceptsNothing :
    ({ active 1#2 [] with seq := .run .readRaw 0 } : State).seq = .run .readRaw 0 ∧
    ∃ t, step { active 1#2 [] with seq := .run .readRaw 0 } = .next t := ⟨by decide, _, rfl⟩

/-- The last event of a command and the end after it. -/
theorem witness_SequencerAdvancesByOneEvent :
    ({ active 1#2 [] with seq := .run .readRaw 99 } : State).seq = .run .readRaw 99 ∧ 99 < eventCount .readRaw 1#2 ∧
    eventCount .readRaw 1#2 ≤ 100 ∧ ∃ t, step { active 1#2 [] with seq := .run .readRaw 100 } = .next t :=
  ⟨by decide, by decide, by decide, _, rfl⟩

/-- The rows at the ends of their ranges: bit cycle 23, the first and the last selection pulse, FINISH. -/
theorem witness_ReadRowsFollowTable :
    (∀ k, ({ active 3#2 [] with seq := .run .readRaw k } : State).seq = .run .readRaw k) ∧
    23 < 24 ∧ 24 ≤ 24 ∧ 26 < 24 + (3#2 : BitVec 2).toNat ∧ 27 = 24 + (3#2 : BitVec 2).toNat ∧
    (active 3#2 []).pulseCount ≠ 0#2 := ⟨fun _ => rfl, by decide⟩

theorem witness_ExecIsTheSequencer : ∃ t, exec .readRaw (active 3#2 []) = .next t := ⟨_, rfl⟩

theorem witness_ConstructionFollowsSelection : (⟨0⟩ : PinId) ≠ ⟨1⟩ ∧ (64, 3#2) ∈ [(128, 1#2), (32, 2#2), (64, 3#2)] ∧
    (7 ≠ 128 ∧ 7 ≠ 32 ∧ 7 ≠ 64) := by decide

theorem witness_ConstructionMeetsConditions : ∃ t, State.construct ⟨0⟩ ⟨1⟩ 64 Env.free = .next t := ⟨_, rfl⟩

theorem witness_SetupResult :
    (before chipAsleep (fresh 1#2 [])).seq = .idle ∧ (before chipAsleep (fresh 1#2 [])).setupDone = false ∧
    (before chipAsleep (fresh 1#2 [])).env.chip = some chipAsleep ∧ (fresh 1#2 []).env.chip = none := by decide

theorem witness_SetupOnceAndFirst :
    (fresh 1#2 []).seq = .idle ∧ (fresh 1#2 []).setupDone = false ∧ (active 1#2 []).seq = .idle ∧
    (active 1#2 []).setupDone = true := by decide

theorem witness_SetGainResult : (fresh 1#2 []).seq = .idle := by decide

theorem witness_SetGainIllegalSelection : (fresh 1#2 []).seq = .idle ∧ (0 ≠ 128 ∧ 0 ≠ 32 ∧ 0 ≠ 64) := by decide

theorem witness_SetGainHeldValue : (active 3#2 []).seq = .idle ∧ (active 3#2 []).pulseCount = pulsesOf .a64 := by decide

theorem witness_SetGainThenReadPulses :
    (active 1#2 []).seq = .idle ∧ (active 1#2 []).setupDone = true ∧ (active 1#2 []).sck = low ∧
    (0x2040#16, 3) ∈ [(0x2080#16, 1), (0x2020#16, 2), (0x2040#16, 3)] := by decide

theorem witness_PulseCountIsLastSelection :
    (∃ t, execAll [.setGain 64, .readRaw, .setGain 32] (active 1#2 []) = .next t) ∧ (active 1#2 []).pulseCount ≠ 0#2 :=
  ⟨⟨_, rfl⟩, by decide⟩

/-- An oracle, a chip whose answer is fixed, a chip asleep. -/
theorem witness_IsReadyResult :
    (active 1#2 [0#1]).seq = .idle ∧ (active 1#2 [0#1]).setupDone = true ∧ (active 1#2 [0#1]).env.chip = none ∧
    (active 1#2 [0#1]).env.answers = 0#1 :: [] ∧
    (((before (chipOn .a128 0#24 true 0 low) (active 1#2 [])).env.turn false).chip = some (chipOn .a128 0#24 true 0 low) ∧
      (chipOn .a128 0#24 true 0 low).power = .on ∧
      (chipOn .a128 0#24 true 0 low).desync = false ∧ (chipOn .a128 0#24 true 0 low).highFor = none) ∧
    (((before chipAsleep (down 1#2 [1#1])).env.turn false).chip = some chipAsleep ∧
      chipAsleep.power = .asleep ∧ (before chipAsleep (down 1#2 [1#1])).env.answers = 1#1 :: []) := by decide

theorem witness_ReadRawResult :
    (active 3#2 (spell 0x800000#24)).seq = .idle ∧ (active 3#2 (spell 0x800000#24)).setupDone = true ∧
    (active 3#2 (spell 0x800000#24)).sck = low ∧ (active 3#2 (spell 0x800000#24)).pulseCount ≠ 0#2 ∧
    (active 3#2 (spell 0x800000#24)).env.chip = none ∧ (spell 0x800000#24).length = 24 ∧
    (active 3#2 (spell 0x800000#24)).env.answers = spell 0x800000#24 ++ [] := by decide

theorem witness_ReadingIsFunctionOfSamples :
    (active 1#2 (spell 0x7FFFFF#24)).env.answers = spell 0x7FFFFF#24 ++ [] ∧ (spell 0x7FFFFF#24).length = 24 ∧
    (active 1#2 (spell 0x7FFFFF#24)).env.chip = none ∧ (active 1#2 (spell 0x7FFFFF#24)).seq = .idle ∧
    (active 1#2 (spell 0x7FFFFF#24)).setupDone = true ∧ (active 1#2 (spell 0x7FFFFF#24)).sck = low ∧
    (active 1#2 (spell 0x7FFFFF#24)).pulseCount ≠ 0#2 ∧ Config.rawMin ≤ -8388608 ∧ -8388608 ≤ Config.rawMax ∧
    readingOf (spell 0x7FFFFF#24) = readingOf (spell 0x7FFFFF#24) := by decide

theorem witness_BitCyclesFillAccumulator : 24 ≤ 24 := by decide

theorem witness_ReadTraceClosedForm :
    (active 2#2 []).seq = .idle ∧ (active 2#2 []).setupDone = true ∧ (active 2#2 []).sck = low ∧
    (active 2#2 []).pulseCount ≠ 0#2 := by decide

theorem witness_ReadPulseCount :
    (active 3#2 []).seq = .idle ∧ (active 3#2 []).setupDone = true ∧ (active 3#2 []).sck = low ∧
    (active 3#2 []).pulseCount ≠ 0#2 := by decide

/-- A pattern with bit 23 clear and one with it set, and a read that ends. -/
theorem witness_SignExtension :
    (0x7FFFFF#24).getLsbD 23 = false ∧ (0x800000#24).getLsbD 23 = true ∧ (23 ≤ 31 ∧ 31 < 32) ∧
    ∃ t, exec .readRaw (active 1#2 []) = .next t := ⟨by decide, by decide, by decide, _, rfl⟩

theorem witness_ReadRawStops :
    ((fresh 1#2 []).seq = .idle ∧ (fresh 1#2 []).setupDone = false) ∧
    ((down 1#2 []).seq = .idle ∧ (down 1#2 []).setupDone = true ∧ (down 1#2 []).sck = high ∧
      (down 1#2 []).pulseCount ≠ 0#2) ∧
    ((active 0#2 []).seq = .idle ∧ (active 0#2 []).setupDone = true ∧ (active 0#2 []).sck = low ∧
      (active 0#2 []).pulseCount = 0#2) ∧
    ((active 1#2 []).seq = .idle ∧ (active 1#2 []).setupDone = true ∧ (active 1#2 []).sck = low ∧
      (active 1#2 []).pulseCount ≠ 0#2) ∧
    ((spell 0x876543#24).length = 24 ∧ (active 1#2 (spell 0x876543#24)).env.answers = spell 0x876543#24 ++ [] ∧
      (active 1#2 (spell 0x876543#24)).env.chip = none) ∧
    (let c := chipOn .a128 0#24 false 25 high
     let s := before c (active 1#2 (spell 0x876543#24))
     s.env.answers = spell 0x876543#24 ++ [] ∧ s.sckDir = .output ∧ (s.env.turn false).chip = some c ∧ c.power = .on ∧
       c.highFor = none ∧ c.ready = false) ∧
    ((before chipAsleep (down 1#2 [])).sckDir = .output ∧
      (before chipAsleep (down 1#2 [])).env.chip = some chipAsleep ∧ chipAsleep.power = .asleep ∧
      chipAsleep.highFor ≠ none) := by decide

theorem witness_StuckDataLineReadings :
    (active 1#2 (List.replicate 24 high)).seq = .idle ∧ (active 1#2 (List.replicate 24 high)).setupDone = true ∧
    (active 1#2 (List.replicate 24 high)).sck = low ∧ (active 1#2 (List.replicate 24 high)).pulseCount ≠ 0#2 ∧
    (active 1#2 (List.replicate 24 high)).env.chip = none ∧
    (active 1#2 (List.replicate 24 high)).env.answers = List.replicate 24 high ++ [] ∧
    (active 1#2 (List.replicate 24 low)).env.answers = List.replicate 24 low ++ [] ∧
    (active 1#2 (high :: List.replicate 23 low)).env.answers = high :: List.replicate 23 low ++ [] ∧
    (active 1#2 (List.replicate 23 low ++ [high])).env.answers = List.replicate 23 low ++ high :: [] := by decide

/-- The same samples at two pulse counts, with all the rest of the samples given. -/
theorem witness_ResponseDependsOnSamplesOnly : ∃ t t',
    exec .readRaw (active 1#2 (spell 0#24)) = .next t ∧ exec .readRaw (active 3#2 (spell 0#24)) = .next t' ∧
    samples (t.trace.drop 0) = samples (t'.trace.drop 0) := ⟨_, _, rfl, rfl, by decide +kernel⟩

theorem witness_PowerDownResult :
    (before (chipOn .a64 0#24 true 0 low) (active 1#2 [])).seq = .idle ∧
    (before (chipOn .a64 0#24 true 0 low) (active 1#2 [])).setupDone = true ∧
    (before (chipOn .a64 0#24 true 0 low) (active 1#2 [])).sckDir = .output ∧
    (before (chipOn .a64 0#24 true 0 low) (active 1#2 [])).env.chip = some (chipOn .a64 0#24 true 0 low) ∧
    (active 1#2 []).env.chip = none := by decide

/-- A chip asleep with the line high, and one awake with the line low. -/
theorem witness_PowerUpResult :
    (before chipAsleep (down 1#2 [])).seq = .idle ∧ (before chipAsleep (down 1#2 [])).setupDone = true ∧
    (before chipAsleep (down 1#2 [])).sckDir = .output ∧ (before chipAsleep (down 1#2 [])).env.chip = some chipAsleep ∧
    chipAsleep.power = .asleep ∧ chipAsleep.highFor ≠ none ∧ (down 1#2 []).env.chip = none ∧
    ((before (chipOn .a64 0#24 true 0 low) (active 1#2 [])).env.turn false).chip = some (chipOn .a64 0#24 true 0 low) ∧
    (chipOn .a64 0#24 true 0 low).highFor = none := by decide

theorem witness_PowerCycleForgetsSelection :
    (before (chipOn .b32 1#24 true 0 low) (active 2#2 [])).seq = .idle ∧
    (before (chipOn .b32 1#24 true 0 low) (active 2#2 [])).setupDone = true ∧
    (before (chipOn .b32 1#24 true 0 low) (active 2#2 [])).sckDir = .output ∧
    (before (chipOn .b32 1#24 true 0 low) (active 2#2 [])).env.chip = some (chipOn .b32 1#24 true 0 low) ∧
    (active 2#2 []).env.chip = none := by decide

theorem fresh_conditions : blockConditions (fresh 1#2 []) := by unfold blockConditions; decide

theorem active_conditions : blockConditions (active 1#2 []) := by unfold blockConditions; decide

theorem down_conditions : blockConditions (down 1#2 []) := by unfold blockConditions; decide

/-- All three operating conditions (R199). -/
theorem witness_PowerStateMachine :
    (blockConditions (fresh 1#2 []) ∧ (fresh 1#2 []).power = .unknown) ∧
    (blockConditions (active 1#2 []) ∧ (active 1#2 []).power = .active) ∧
    (blockConditions (down 1#2 []) ∧ (down 1#2 []).power = .down ∧ (down 1#2 []).setupDone = true) :=
  ⟨⟨fresh_conditions, rfl⟩, ⟨active_conditions, rfl⟩, down_conditions, rfl, rfl⟩

theorem witness_ChecksInOrder :
    (((active 1#2 []).withFetchWord 16 0xFFFF).seq = .idle ∧
      ((active 1#2 []).withFetchWord 16 0xFFFF).commands = [0xFFFF#16] ∧ decode 0xFFFF#16 = .error .reservedBits) ∧
    ((fresh 1#2 []).setupDone = false ∧ (fresh 1#2 []).seq = .idle ∧
      Instr.powerUp ∈ [Instr.isReady, .readRaw, .powerDown, .powerUp]) ∧
    ((down 0#2 []).setupDone = true ∧ (down 0#2 []).seq = .idle ∧ (down 0#2 []).sck = high) ∧
    ((active 0#2 []).setupDone = true ∧ (active 0#2 []).seq = .idle ∧ (active 0#2 []).sck = low ∧
      (active 0#2 []).pulseCount = 0#2) := by decide

/-- Each command ends with a next state somewhere. -/
theorem witness_FrameOfEveryCommand :
    (∃ t, exec .setup (fresh 1#2 []) = .next t) ∧ (∃ t, exec (.setGain 32) (fresh 1#2 []) = .next t) ∧
    (∃ t, exec .isReady (down 1#2 []) = .next t) ∧ (∃ t, exec .readRaw (active 1#2 []) = .next t) ∧
    (∃ t, exec .powerDown (active 1#2 []) = .next t) ∧ (∃ t, exec .powerUp (down 1#2 []) = .next t) :=
  ⟨⟨_, rfl⟩, ⟨_, rfl⟩, ⟨_, rfl⟩, ⟨_, rfl⟩, ⟨_, rfl⟩, ⟨_, rfl⟩⟩

theorem witness_EventsAreAppended : ∃ t, exec .readRaw (active 2#2 []) = .next t := ⟨_, rfl⟩

theorem witness_LeastDurations : ∃ t, exec .powerDown (active 2#2 []) = .next t := ⟨_, rfl⟩

theorem witness_StepKeepsBlockConditions :
    blockConditions ((fresh 1#2 []).withFetchWord 16 0x1000) ∧
    ∃ t, step ((fresh 1#2 []).withFetchWord 16 0x1000) = .next t :=
  ⟨by unfold blockConditions; decide, _, rfl⟩

/-- Inside a read, after the rise of its first selection pulse. -/
theorem witness_StepKeepsSequencerConditions :
    sequencerConditions { active 1#2 [] with sck := high, seq := .run .readRaw 97 } ∧
    ∃ t, step { active 1#2 [] with sck := high, seq := .run .readRaw 97 } = .next t :=
  ⟨by simp only [sequencerConditions, clockInside]; decide, _, rfl⟩

theorem polled_conditions : blockConditions polled ∧ chipConditions polled ∧ pollTells polled ∧ synchronised polled := by
  refine ⟨by unfold blockConditions; decide, ?_, ?_, ?_⟩
  · intro c hc; cases hc; decide
  · intro c hc; cases hc; decide
  · intro c hc; cases hc; decide

theorem witness_StepKeepsChipConditions :
    blockConditions (polled.withFetchWord 16 0x3000) ∧ chipConditions (polled.withFetchWord 16 0x3000) ∧
    ∃ t, step (polled.withFetchWord 16 0x3000) = .next t := by
  refine ⟨by unfold blockConditions; decide, ?_, _, rfl⟩
  intro c hc; cases hc; decide

theorem witness_ContractKeepsSynchronised :
    (blockConditions polled ∧ chipConditions polled ∧ pollTells polled ∧ synchronised polled) ∧
    permitted polled .readRaw = true ∧ (∃ t, exec .readRaw polled = .next t) ∧ polled.commands = [] ∧
    ∃ t, step polled = .next t := ⟨polled_conditions, by decide, ⟨_, rfl⟩, by decide, _, rfl⟩

theorem witness_ContractRunIsGood :
    blockConditions (fresh 1#2 []) ∧ followsContract [.setGain 64, .setup] (fresh 1#2 []) := by
  refine ⟨fresh_conditions, by decide, fun t h => ?_⟩
  cases h
  exact ⟨by decide, fun _ _ => trivial⟩

theorem witness_ContractReadReturnsConversion :
    (blockConditions polled ∧ chipConditions polled ∧ pollTells polled ∧ synchronised polled) ∧
    permitted polled .readRaw = true ∧ (polled.env.turn false).chip = some (chipOn .a128 0x123456#24 true 0 low) :=
  ⟨polled_conditions, by decide, by decide⟩

theorem witness_SelectionLagsByOneRead :
    polledScheduled.seq = .idle ∧ polledScheduled.setupDone = true ∧ polledScheduled.sck = low ∧
    polledScheduled.sckDir = .output ∧
    (polledScheduled.env.turn false).chip = some (chipOn .a128 0x123456#24 true 0 low) ∧
    (chipOn .a128 0x123456#24 true 0 low).power = .on ∧ (chipOn .a128 0x123456#24 true 0 low).desync = false ∧
    (chipOn .a128 0x123456#24 true 0 low).highFor = none ∧ (chipOn .a128 0x123456#24 true 0 low).ready = true ∧
    (chipOn .a128 0x123456#24 true 0 low).cnt = 0 := by decide

theorem witness_NotReadyReadNeedsPowerCycle :
    let c := chipOn .a128 0#24 false 25 high
    let s := before c (active 1#2 [])
    s.seq = .idle ∧ s.setupDone = true ∧ s.sck = low ∧ s.sckDir = .output ∧ s.pulseCount ≠ 0#2 ∧
    (s.env.turn false).chip = some c ∧ c.power = .on ∧ c.highFor = none ∧ c.ready = false := by decide

theorem witness_OnlyWakeLeavesDesync :
    ({ chipOn .a128 0#24 false 0 high with desync := true } : Chip).desync = true ∧
    ({ chipAsleep with desync := true } : Chip).desync = true := by decide

/-- Each row's condition on its own chip. -/
theorem witness_ReferenceChipRows :
    let c := chipOn .a128 0#24 true 0 low
    c.power = .on ∧ c.desync = false ∧ c.highFor = none ∧ c.ready = true ∧ c.cnt = 0 ∧ PulseKind.first ≠ .request ∧
    (60 : Nat) < 61 ∧ 60 ≤ 60 ∧
    (chipOn .a128 0#24 true 24 low).cnt = 24 ∧ (chipOn .a128 0#24 false 26 high).cnt = 26 ∧
    (chipOn .a128 0#24 false 0 high).ready = false := by decide

theorem witness_SampleWaitsThenReads :
    let s := active 1#2 (List.replicate 2 high ++ low :: (spell 0x876543#24 ++ []))
    s.seq = .idle ∧ s.setupDone = true ∧ s.sck = low ∧ s.pulseCount ≠ 0#2 ∧ s.env.chip = none ∧
    (spell 0x876543#24).length = 24 ∧ 2 < 3 ∧
    s.env.answers = List.replicate 2 high ++ low :: (spell 0x876543#24 ++ []) := by decide

/-- Two blocks with four pins, and two that share the data pin. -/
theorem witness_BlocksAreIndependent :
    let ms := [fresh 1#2 [], { fresh 2#2 [] with clockPin := ⟨2⟩, dataPin := ⟨3⟩ }]
    ownPins ms = true ∧ (∃ s t, ms[1]? = some s ∧ step s = .next t) ∧ (∃ ts, stepOne 1 ms = some (.next ts)) ∧ 0 ≠ 1 ∧
    ownPins [fresh 1#2 [], { fresh 2#2 [] with clockPin := ⟨2⟩ }] = false :=
  ⟨by decide, ⟨_, _, rfl, rfl⟩, ⟨_, rfl⟩, by decide, by decide⟩

end Sys2Proof.Tests
end

section
/-!
The block's commands in closed form (spec/10_state.md R20, R30): what `SETUP`, `IS_READY`, `POWER_DOWN` and `POWER_UP` leave in
the block, field by field, before any environment.  `readRawBody_spec` says the same of `READ_RAW` and `exec_next` of `SET_GAIN`.
-/

namespace Sys2Proof.Machine

open Sys2Proof

/-- The body of `SETUP`, from every state (R120, R121). -/
theorem setupBody_eq (s : State) : s.setupBody =
    { s with sck := low, sckDir := .output, doutDir := .input, seq := .idle, setupDone := true, power := .active,
             trace := s.trace ++ setupTrace s.clockPin s.dataPin, env := s.setupBody.env } := by
  apply state_ext <;> simp [State.setupBody, State.endSetup, setupTrace]

/-- The body of `IS_READY`: the answer is that of the level sampled (R140). -/
theorem isReadyBody_eq (s : State) : (s.accept .isReady).poll.endPoll =
    { s with result := readyAnswer (s.accept .isReady).memRead.1, seq := .idle,
             trace := s.trace ++ [.rd s.dataPin (s.accept .isReady).memRead.1],
             responses := s.responses ++ [readyAnswer (s.accept .isReady).memRead.1],
             env := (s.accept .isReady).poll.env } := by
  apply state_ext <;> simp [State.endPoll]

/-- The body of `POWER_DOWN` (R170, R171). -/
theorem powerDownBody_eq (s : State) :
    (((s.accept .powerDown).memWrite high).delay Config.tPdHoldMin).endPowerDown =
    { s with sck := high, seq := .idle, power := .down,
             trace := s.trace ++ [.wr s.clockPin high, .dly Config.tPdHoldMin],
             env := (((s.accept .powerDown).memWrite high).delay Config.tPdHoldMin).env } := by
  apply state_ext <;> simp [State.endPowerDown]

/-- The body of `POWER_UP` (R174, R175). -/
theorem powerUpBody_eq (s : State) : ((s.accept .powerUp).memWrite low).endPowerUp =
    { s with sck := low, seq := .idle, power := .active, trace := s.trace ++ [.wr s.clockPin low],
             env := ((s.accept .powerUp).memWrite low).env } := by
  apply state_ext <;> simp [State.endPowerUp]

theorem bitsTrace_length (clock data : PinId) (bs : List Level) : (bitsTrace clock data bs).length = 4 * bs.length := by
  induction bs with
  | nil => rfl
  | cons b bs ih => simp [bitsTrace, bitTrace, ih]; omega

theorem selTrace_length (clock : PinId) (n : Nat) : (selTrace clock n).length = 4 * n := by
  induction n with
  | zero => rfl
  | succ n ih => simp [selTrace, ih]; omega

/-- A level is one bit (R9). -/
theorem eq_low_of_ne_high {v : Level} (h : v ≠ high) : v = low := by
  revert h; revert v; decide

/-- No selection has the pulse count 0 (R100, D9). -/
theorem pulseCountOf_ne_zero {sel : Nat} {n : BitVec 2} (h : pulseCountOf sel = some n) : n ≠ 0#2 := by
  obtain ⟨x, -, rfl⟩ := Option.map_eq_some_iff.mp h
  cases x <;> decide

/-- Settles O39, from each command in closed form. -/
theorem frameOfEveryCommand : Obligations.FrameOfEveryCommand := by
  intro i s t h
  obtain ⟨hidle, h⟩ := exec_next.mp h
  cases i with
  | setup =>
    obtain ⟨-, rfl⟩ := h
    rw [setupBody_eq]
    simp [hidle]
  | setGain sel =>
    obtain ⟨n, -, rfl⟩ := h
    simp
  | isReady =>
    obtain ⟨-, rfl⟩ := h
    rw [isReadyBody_eq]
    simp [hidle]
  | readRaw =>
    obtain ⟨-, hlow, -, rfl⟩ := h
    obtain ⟨bs, e, -, hbody, -⟩ := readRawBody_spec s
    rw [hbody]
    simp [hidle, hlow]
  | powerDown =>
    obtain ⟨-, rfl⟩ := h
    rw [powerDownBody_eq]
    simp [hidle]
  | powerUp =>
    obtain ⟨-, rfl⟩ := h
    rw [powerUpBody_eq]
    simp [hidle]

/-- Settles O40: the events each command appends, counted in closed form. -/
theorem eventsAreAppended : Obligations.EventsAreAppended := by
  intro i s t h
  obtain ⟨-, h⟩ := exec_next.mp h
  cases i with
  | setup =>
    obtain ⟨-, rfl⟩ := h
    exact ⟨setupTrace s.clockPin s.dataPin, by rw [setupBody_eq], rfl⟩
  | setGain sel =>
    obtain ⟨n, -, rfl⟩ := h
    exact ⟨[], (List.append_nil _).symm, rfl⟩
  | isReady =>
    obtain ⟨-, rfl⟩ := h
    exact ⟨[.rd s.dataPin (s.accept .isReady).memRead.1], by rw [isReadyBody_eq], rfl⟩
  | readRaw =>
    obtain ⟨-, -, -, rfl⟩ := h
    obtain ⟨bs, e, hlen, hbody, -⟩ := readRawBody_spec s
    refine ⟨readTrace s.clockPin s.dataPin bs s.pulseCount.toNat, by rw [hbody], ?_⟩
    simp [readTrace, bitsTrace_length, selTrace_length, eventCount, hlen]
  | powerDown =>
    obtain ⟨-, rfl⟩ := h
    exact ⟨[.wr s.clockPin high, .dly Config.tPdHoldMin], by rw [powerDownBody_eq], rfl⟩
  | powerUp =>
    obtain ⟨-, rfl⟩ := h
    exact ⟨[.wr s.clockPin low], by rw [powerUpBody_eq], rfl⟩

/-- `SET_GAIN` that ends with a next state leaves the pulse count of its selection (R126). -/
theorem exec_setGain_pulseCount {sel : Nat} {s t : State} (h : exec (.setGain sel) s = .next t) :
    pulseCountOf sel = some t.pulseCount := by
  obtain ⟨-, n, hn, rfl⟩ := exec_next.mp h
  exact hn

/-- No other command touches `PULSE_COUNT` (R23). -/
theorem exec_pulseCount_same {i : Instr} {s t : State} (h : exec i s = .next t) (hi : ∀ sel, i ≠ .setGain sel) :
    t.pulseCount = s.pulseCount := by
  obtain ⟨-, -, -, -, hcount, -⟩ := frameOfEveryCommand i s t h
  exact hcount hi

/-- R23: every command keeps a legal `PULSE_COUNT` legal. -/
theorem exec_pulseCount_legal {i : Instr} {s t : State} (h : exec i s = .next t) (hs : s.pulseCount ≠ 0#2) :
    t.pulseCount ≠ 0#2 := by
  by_cases hi : ∃ sel, i = .setGain sel
  · obtain ⟨sel, rfl⟩ := hi
    exact pulseCountOf_ne_zero (exec_setGain_pulseCount h)
  · rw [exec_pulseCount_same h fun sel hsel => hi ⟨sel, hsel⟩]
    exact hs

/-- A list of commands ends with a next state when its first command does and the rest does from there (R204). -/
theorem execAll_cons_next {i : Instr} {is : List Instr} {s t : State} :
    execAll (i :: is) s = .next t ↔ ∃ u, exec i s = .next u ∧ execAll is u = .next t := by
  simp only [execAll, andThen]
  cases exec i s <;> simp

/-- Settles O21, by induction on the list of commands. -/
theorem pulseCountIsLastSelection : Obligations.PulseCountIsLastSelection := by
  intro is
  induction is with
  | nil =>
    intro s t h
    cases h
    exact ⟨rfl, id⟩
  | cons i is ih =>
    intro s t h
    obtain ⟨u, hu, ht⟩ := execAll_cons_next.mp h
    obtain ⟨hlast, hlegal⟩ := ih u t ht
    refine ⟨?_, fun hs => hlegal (exec_pulseCount_legal hu hs)⟩
    rw [hlast, List.foldl_cons]
    congr 1
    cases i with
    | setGain sel => simp [exec_setGain_pulseCount hu]
    | _ => exact exec_pulseCount_same hu nofun

end Sys2Proof.Machine
end

section
/-!
One step of the machine: what it can do from an idle block and inside a command, and that inside a command it emits one event
(spec/10_state.md R29, R30; spec/60_exceptions.md R204).
-/

namespace Sys2Proof.Machine

open Sys2Proof

/-- The one inversion lemma for a step of an idle block: it waits, or carries its next command out. -/
theorem step_idle_next {s t : State} (hq : s.seq = .idle) : step s = .next t ↔
    (s.commands = [] ∧ t = s.chipTurn) ∨
    ∃ w rest i, s.commands = w :: rest ∧ decode w = .ok i ∧ exec i { s with commands := rest } = .next t := by
  simp only [step, hq, State.idleStep]
  cases hc : s.commands with
  | nil => simp [@eq_comm _ t]
  | cons w rest => cases hd : decode w <;> simp [offer, hd]

/-- Inside a command a step carries out the row of event `k`, while there is one. -/
theorem step_run_row {s : State} {c : Instr} {k : Nat} (hq : s.seq = .run c k) (hk : k < eventCount c s.pulseCount) :
    step s = .next (s.row c k) := by
  simp [step, State.advance, hq, hk]

/-- After the last event it ends the command. -/
theorem step_run_last {s : State} {c : Instr} {k : Nat} (hq : s.seq = .run c k) (hk : eventCount c s.pulseCount ≤ k) :
    step s = s.lastRow c := by
  simp [step, State.advance, hq, Nat.not_lt.mpr hk]

/-- What the end of a command can do (R30, R145). -/
theorem lastRow_next {c : Instr} {s t : State} : s.lastRow c = .next t ↔
    match c with
    | .setup => t = s.endSetup
    | .setGain sel => ∃ n, pulseCountOf sel = some n ∧ t = { s with pulseCount := n, seq := .idle }
    | .isReady => t = s.endPoll
    | .readRaw => s.pulseCount ≠ 0#2 ∧ t = s.endRead
    | .powerDown => t = s.endPowerDown
    | .powerUp => t = s.endPowerUp := by
  cases c with
  | setGain sel =>
    simp only [State.lastRow, State.endSetGain]
    cases pulseCountOf sel <;> simp [State.finish, @eq_comm _ t]
  | readRaw => simp [State.lastRow, whenCounted_next, @eq_comm _ t]
  | _ => simp [State.lastRow, @eq_comm _ t]

/-- Ending a command emits nothing, and the block is idle again (R30). -/
theorem lastRow_idle {c : Instr} {s t : State} (h : s.lastRow c = .next t) : t.seq = .idle ∧ t.trace = s.trace := by
  have h := lastRow_next.mp h
  cases c with
  | setGain sel =>
    obtain ⟨n, -, rfl⟩ := h
    exact ⟨rfl, rfl⟩
  | readRaw =>
    obtain ⟨-, rfl⟩ := h
    exact ⟨rfl, rfl⟩
  | _ =>
    subst h
    exact ⟨rfl, rfl⟩

/-- From `s` to `t` exactly one event is emitted, and what no event touches stays (R11, R30). -/
structure State.EmitsOne (s t : State) : Prop where
  seq : t.seq = s.seq.bump
  trace : ∃ ev, t.trace = s.trace ++ [ev]
  pulseCount : t.pulseCount = s.pulseCount
  clockPin : t.clockPin = s.clockPin
  dataPin : t.dataPin = s.dataPin
  setupDone : t.setupDone = s.setupDone
  power : t.power = s.power

/-- Every primitive emits one event, the samples of `IS_READY` and of a bit cycle included (R11). -/
theorem emitsOne_pinModeClock (s : State) : s.EmitsOne s.pinModeClock := ⟨rfl, ⟨_, rfl⟩, rfl, rfl, rfl, rfl, rfl⟩

theorem emitsOne_pinModeData (s : State) : s.EmitsOne s.pinModeData := ⟨rfl, ⟨_, rfl⟩, rfl, rfl, rfl, rfl, rfl⟩

theorem emitsOne_memWrite (s : State) (v : Level) : s.EmitsOne (s.memWrite v) := ⟨rfl, ⟨_, rfl⟩, rfl, rfl, rfl, rfl, rfl⟩

theorem emitsOne_delay (s : State) (n : Nat) : s.EmitsOne (s.delay n) := ⟨rfl, ⟨_, rfl⟩, rfl, rfl, rfl, rfl, rfl⟩

theorem emitsOne_poll (s : State) : s.EmitsOne s.poll := ⟨rfl, ⟨_, rfl⟩, rfl, rfl, rfl, rfl, rfl⟩

theorem emitsOne_sampleBit (s : State) : s.EmitsOne s.sampleBit := ⟨rfl, ⟨_, rfl⟩, rfl, rfl, rfl, rfl, rfl⟩

theorem emitsOne_setupRow (s : State) (k : Nat) : s.EmitsOne (s.setupRow k) := by
  unfold State.setupRow
  split
  · exact emitsOne_pinModeClock s
  · exact emitsOne_pinModeData s
  · exact emitsOne_memWrite s high
  · exact emitsOne_delay s _
  · exact emitsOne_memWrite s low

theorem emitsOne_readRow (s : State) (p j : Nat) : s.EmitsOne (s.readRow p j) := by
  unfold State.readRow
  split
  · split
    · exact emitsOne_memWrite s high
    · exact emitsOne_delay s _
    · exact emitsOne_sampleBit s
    · exact emitsOne_memWrite s low
  · split
    · exact emitsOne_memWrite s high
    · exact emitsOne_delay s _
    · exact emitsOne_memWrite s low
    · exact emitsOne_delay s _

theorem emitsOne_powerDownRow (s : State) (k : Nat) : s.EmitsOne (s.powerDownRow k) := by
  unfold State.powerDownRow
  split
  · exact emitsOne_memWrite s high
  · exact emitsOne_delay s _

/-- Every row of a command emits one event (R30); `SET_GAIN` has no row. -/
theorem emitsOne_row {s : State} {c : Instr} {k : Nat} (hk : k < eventCount c s.pulseCount) :
    s.EmitsOne (s.row c k) := by
  cases c with
  | setup => exact emitsOne_setupRow s k
  | setGain sel => exact absurd hk (Nat.not_lt_zero k)
  | isReady => exact emitsOne_poll s
  | readRaw => exact emitsOne_readRow s _ _
  | powerDown => exact emitsOne_powerDownRow s k
  | powerUp => exact emitsOne_memWrite s low

/-- A row of a command advances `k` by one (R30). -/
theorem row_seq {s : State} {c : Instr} {k : Nat} (hq : s.seq = .run c k) (hk : k < eventCount c s.pulseCount) :
    (s.row c k).seq = .run c (k + 1) := by
  rw [(emitsOne_row hk).seq, hq, Seq.bump]

/-- Settles O8: the rows emit one event each, the end of a command none. -/
theorem sequencerAdvancesByOneEvent : Obligations.SequencerAdvancesByOneEvent := by
  intro s c k hq
  refine ⟨fun hk => ?_, fun hk t ht => ?_⟩
  · obtain ⟨ev, htrace⟩ := (emitsOne_row hk).trace
    exact ⟨s.row c k, ev, step_run_row hq hk, row_seq hq hk, htrace, (emitsOne_row hk).pulseCount⟩
  · rw [step_run_last hq hk] at ht
    exact lastRow_idle ht

end Sys2Proof.Machine
end

section
/-!
A command carried out at once is its rows one after another (spec/41_acquisition.md R142, R145): the rows of a command as one
function, and `READ_RAW`'s rows regrouped into bit cycles and selection pulses.
-/

namespace Sys2Proof.Machine

open Sys2Proof

/-- `n` rows of command `c` in order, from that of event `k` on. -/
def State.rowsFrom (c : Instr) : Nat → Nat → State → State
  | _, 0, s => s
  | k, n + 1, s => State.rowsFrom c (k + 1) n (s.row c k)

/-- The sequencer carries out the rows that are left and ends the command (R30). -/
theorem advances_eq_rowsFrom {c : Instr} {n k : Nat} {s : State} (hq : s.seq = .run c k)
    (hn : k + n = eventCount c s.pulseCount) :
    State.advances (n + 1) s = (State.rowsFrom c k n s).lastRow c := by
  induction n generalizing k s with
  | zero =>
    have hk : ¬ k < eventCount c s.pulseCount := by omega
    simp only [State.advances, State.advance, hq, if_neg hk, State.rowsFrom]
    cases s.lastRow c <;> rfl
  | succ n ih =>
    have hk : k < eventCount c s.pulseCount := by omega
    have hn' : k + 1 + n = eventCount c (s.row c k).pulseCount := by rw [(emitsOne_row hk).pulseCount]; omega
    calc State.advances (n + 2) s = State.advances (n + 1) (s.row c k) := by
          rw [State.advances, State.advance, hq]; simp only [if_pos hk]
      _ = (State.rowsFrom c k (n + 1) s).lastRow c := ih (row_seq hq hk) hn'

/-- Position `(p, j)` of the table is event `4 * p + j` (R145). -/
theorem row_readRaw (s : State) (p : Nat) {j : Nat} (hj : j < 4) : s.row .readRaw (4 * p + j) = s.readRow p j := by
  have hdiv : (4 * p + j) / 4 = p := by omega
  have hmod : (4 * p + j) % 4 = j := by omega
  simp only [State.row, hdiv, hmod]

/-- The next four rows of `READ_RAW` are the four steps of its pulse `p`. -/
theorem rowsFrom_readRaw_four (s : State) (p r : Nat) : State.rowsFrom .readRaw (4 * p) (r + 4) s =
    State.rowsFrom .readRaw (4 * (p + 1)) r
      ((((s.readRow p 0).readRow p 1).readRow p 2).readRow p 3) := by
  simp only [← row_readRaw _ p (show 0 < 4 by decide), ← row_readRaw _ p (show 1 < 4 by decide),
    ← row_readRaw _ p (show 2 < 4 by decide), ← row_readRaw _ p (show 3 < 4 by decide)]
  rfl

/-- The four rows of a data pulse are a bit cycle (R144). -/
theorem readRows_bitCycle (s : State) {p : Nat} (hp : p < 24) :
    (((s.readRow p 0).readRow p 1).readRow p 2).readRow p 3 = s.bitCycle := by
  simp [State.readRow, State.bitCycle, Config.dataBits, hp]

/-- The four rows of a later pulse are a selection pulse (R146). -/
theorem readRows_selPulse (s : State) {p : Nat} (hp : 24 ≤ p) :
    (((s.readRow p 0).readRow p 1).readRow p 2).readRow p 3 = s.selPulse := by
  simp [State.readRow, State.selPulse, Config.dataBits, Nat.not_lt.mpr hp]

theorem rowsFrom_bitCycles {m p : Nat} (r : Nat) (s : State) (hp : p + m ≤ 24) :
    State.rowsFrom .readRaw (4 * p) (r + 4 * m) s =
      State.rowsFrom .readRaw (4 * (p + m)) r (State.bitCycles m s) := by
  induction m generalizing p s with
  | zero => rfl
  | succ m ih =>
    calc State.rowsFrom .readRaw (4 * p) (r + 4 * m + 4) s
        = State.rowsFrom .readRaw (4 * (p + 1)) (r + 4 * m) s.bitCycle := by
          rw [rowsFrom_readRaw_four, readRows_bitCycle s (by omega)]
      _ = State.rowsFrom .readRaw (4 * (p + (m + 1))) r (State.bitCycles (m + 1) s) := by
          rw [ih s.bitCycle (by omega), Nat.add_right_comm, Nat.add_assoc p m 1, State.bitCycles]

theorem rowsFrom_selPulses {m p : Nat} (s : State) (hp : 24 ≤ p) :
    State.rowsFrom .readRaw (4 * p) (4 * m) s = State.selPulses m s := by
  induction m generalizing p s with
  | zero => rfl
  | succ m ih =>
    calc State.rowsFrom .readRaw (4 * p) (4 * m + 4) s
        = State.rowsFrom .readRaw (4 * (p + 1)) (4 * m) s.selPulse := by
          rw [rowsFrom_readRaw_four, readRows_selPulse s hp]
      _ = State.selPulses (m + 1) s := by rw [ih s.selPulse (by omega), State.selPulses]

/-- All rows of `READ_RAW` are its bit cycles and then its selection pulses (R142). -/
theorem rowsFrom_readRaw (s : State) : State.rowsFrom .readRaw 0 (eventCount .readRaw s.pulseCount) s =
    State.selPulses s.pulseCount.toNat (State.bitCycles Config.dataBits s) := by
  have hcount : eventCount .readRaw s.pulseCount = 4 * s.pulseCount.toNat + 4 * 24 := Nat.add_comm _ _
  rw [hcount, rowsFrom_bitCycles (p := 0) _ s (by decide), rowsFrom_selPulses _ (by decide), Config.dataBits]

/-- Settles O10: the rows of the accepted command, then its end, are the command's body. -/
theorem execIsTheSequencer : Obligations.ExecIsTheSequencer := by
  intro i s t h
  rw [advances_eq_rowsFrom (accept_seq s i) (by rw [accept_pulseCount, Nat.zero_add])]
  cases i with
  | setGain sel => exact (whenIdle_next.mp h).2
  | readRaw =>
    obtain ⟨-, -, -, hcount, rfl⟩ := exec_next.mp h
    obtain ⟨bs, e, -, hbits, -⟩ := bitCycles_spec Config.dataBits (s.accept .readRaw)
    have hbitsCount : (State.bitCycles Config.dataBits (s.accept .readRaw)).pulseCount = s.pulseCount := by
      rw [hbits, accept_pulseCount]
    rw [← accept_pulseCount s .readRaw, rowsFrom_readRaw, accept_pulseCount, lastRow_next]
    refine ⟨?_, by rw [State.readRawBody, hbitsCount]⟩
    obtain ⟨e', hsel, -⟩ := selPulses_spec s.pulseCount.toNat (State.bitCycles Config.dataBits (s.accept .readRaw))
    rw [hsel, hbitsCount]
    exact hcount
  | _ =>
    obtain ⟨-, -, rfl⟩ := exec_next.mp h
    rfl

end Sys2Proof.Machine
end

section
/-!
The conditions every step keeps (spec/10_state.md R23; spec/42_power.md R171, R175, R179, R199): they hold after construction, and
whole commands, rows and the ends of commands keep them.
-/

namespace Sys2Proof.Machine

open Sys2Proof

/-! ## Construction -/

/-- What construction answers (R220). -/
theorem construct_next {clock data : PinId} {sel : Nat} {env : Env} {t : State} :
    State.construct clock data sel env = .next t ↔
      clock ≠ data ∧ ∃ n, pulseCountOf sel = some n ∧ t = State.constructed clock data n env := by
  unfold State.construct
  split
  · simp [*]
  · cases pulseCountOf sel <;> simp [*, @eq_comm _ t]

/-- A block not set up yet asks nothing of its chip and of its caller (R222). -/
theorem chip_conditions_before_setup {s : State} (h : s.setupDone = false) :
    chipConditions s ∧ pollTells s ∧ synchronised s := by
  have hno : s.setupDone ≠ true := by simp [h]
  exact ⟨fun _ _ hdone => absurd hdone hno, fun _ _ hdone => absurd hdone hno, fun _ _ hdone => absurd hdone hno⟩

/-- A block just constructed meets its conditions (R37, R220). -/
theorem constructed_blockConditions {clock data : PinId} {n : BitVec 2} (env : Env) (hpins : clock ≠ data)
    (hn : n ≠ 0#2) : blockConditions (State.constructed clock data n env) :=
  ⟨rfl, hn, hpins, fun _ => ⟨rfl, rfl, rfl⟩, nofun⟩

/-- Settles O12. -/
theorem constructionMeetsConditions : Obligations.ConstructionMeetsConditions := by
  intro clock data sel env t h
  obtain ⟨hpins, n, hn, rfl⟩ := construct_next.mp h
  exact ⟨constructed_blockConditions env hpins (pulseCountOf_ne_zero hn), chip_conditions_before_setup rfl⟩

/-- The two pins of the configuration differ (R7, D30). -/
theorem clockPin_ne_dataPin : Config.clockPin ≠ Config.dataPin := by
  intro h
  have h : Config.clockHandle = if Config.dataHandle < Config.clockHandle then Config.dataHandle
      else Config.dataHandle + 1 := congrArg PinId.handle h
  split at h <;> omega

/-- Settles O13, as a case of construction. -/
theorem resetMeetsConditions : Obligations.ResetMeetsConditions := by
  have h : State.construct Config.clockPin Config.dataPin 128 Env.free = .next State.reset :=
    construct_next.mpr ⟨clockPin_ne_dataPin, 1#2, rfl, rfl⟩
  obtain ⟨hblock, hchip, hpoll, hsync⟩ := constructionMeetsConditions _ _ _ _ _ h
  exact ⟨h, hblock, hblock, hchip, hpoll, hsync⟩

/-! ## Whole commands -/

/-- Every command that ends with a next state keeps the conditions of an idle block (R179). -/
theorem exec_keeps_blockConditions {i : Instr} {s t : State} (hs : blockConditions s) (h : exec i s = .next t) :
    blockConditions t := by
  obtain ⟨hidle, hcount, hpins, hbefore, hafter⟩ := hs
  have hlegal := exec_pulseCount_legal h hcount
  obtain ⟨-, h⟩ := exec_next.mp h
  cases i with
  | setup =>
    obtain ⟨-, rfl⟩ := h
    rw [setupBody_eq]
    exact ⟨rfl, hcount, hpins, nofun, fun _ => ⟨rfl, rfl, .inl ⟨rfl, rfl⟩⟩⟩
  | setGain sel =>
    obtain ⟨n, -, rfl⟩ := h
    exact ⟨hidle, hlegal, hpins, hbefore, hafter⟩
  | isReady =>
    obtain ⟨-, rfl⟩ := h
    rw [isReadyBody_eq]
    exact ⟨rfl, hcount, hpins, hbefore, hafter⟩
  | readRaw =>
    obtain ⟨-, hlow, -, rfl⟩ := h
    obtain ⟨bs, e, -, hbody, -⟩ := readRawBody_spec s
    rw [hbody]
    rw [hlow] at hafter
    exact ⟨rfl, hcount, hpins, hbefore, hafter⟩
  | powerDown =>
    obtain ⟨hdone, rfl⟩ := h
    obtain ⟨hclock, hdata, -⟩ := hafter hdone
    rw [powerDownBody_eq]
    exact ⟨rfl, hcount, hpins, by simp [hdone], fun _ => ⟨hclock, hdata, .inr ⟨rfl, rfl⟩⟩⟩
  | powerUp =>
    obtain ⟨hdone, rfl⟩ := h
    obtain ⟨hclock, hdata, -⟩ := hafter hdone
    rw [powerUpBody_eq]
    exact ⟨rfl, hcount, hpins, by simp [hdone], fun _ => ⟨hclock, hdata, .inl ⟨rfl, rfl⟩⟩⟩

/-- Settles O42: the wait changes nothing of the block, and a command keeps its conditions. -/
theorem stepKeepsBlockConditions : Obligations.StepKeepsBlockConditions := by
  intro s t hs h
  obtain ⟨-, rfl⟩ | ⟨w, rest, i, -, -, h⟩ := (step_idle_next hs.1).mp h
  · exact hs
  · exact exec_keeps_blockConditions (s := { s with commands := rest }) hs h

/-! ## Inside a command -/

/-- The clock through `READ_RAW`: high in steps 1, 2 and 3 of a bit cycle and 1 and 2 of a selection pulse (R144, R146). -/
theorem readRow_clock {s : State} {k : Nat} (h : s.sck = high ↔ k % 4 = 1 ∨ k % 4 = 2 ∨ (k < 96 ∧ k % 4 = 3)) :
    (s.row .readRaw k).sck = high ↔ (k + 1) % 4 = 1 ∨ (k + 1) % 4 = 2 ∨ (k + 1 < 96 ∧ (k + 1) % 4 = 3) := by
  obtain ⟨p, j, hj, rfl⟩ : ∃ p j, j < 4 ∧ k = 4 * p + j := ⟨k / 4, k % 4, by omega, by omega⟩
  have hne : low ≠ high := by decide
  rw [row_readRaw s p hj]
  -- Steps 0 and 3 of a data pulse drive the clock, steps 0 and 2 of a selection pulse; the others leave it.
  by_cases hp : p < 24
  · interval_cases j <;> simp [State.readRow, Config.dataBits, hp, hne, h] <;> omega
  · interval_cases j <;> simp [State.readRow, Config.dataBits, hp, hne, h] <;> omega

/-- The rows of `READ_RAW` configure no pin (R145). -/
theorem readRow_dirs (s : State) (p j : Nat) :
    (s.readRow p j).sckDir = s.sckDir ∧ (s.readRow p j).doutDir = s.doutDir := by
  unfold State.readRow
  split <;> split <;> exact ⟨rfl, rfl⟩

/-- The five rows of `SETUP`: each brings about what the next position asks for (R120). -/
theorem setupRow_keeps_clockInside {s : State} {k : Nat} (hk : k < 5) (h : clockInside .setup k s) :
    clockInside .setup (k + 1) (s.row .setup k) := by
  obtain ⟨-, hdone, hpower, -, hclock, hdata, hdata', hhigh, -⟩ := h
  interval_cases k <;> simp_all [clockInside, State.row, State.setupRow]

/-- The two rows of `POWER_DOWN`: the clock goes high and is held there (R170). -/
theorem powerDownRow_keeps_clockInside {s : State} {k : Nat} (hk : k < 2) (h : clockInside .powerDown k s) :
    clockInside .powerDown (k + 1) (s.row .powerDown k) := by
  obtain ⟨-, hdone, hclock, hdata, hpower, hhigh⟩ := h
  interval_cases k
  · exact ⟨hk, hdone, hclock, hdata, hpower, fun _ => rfl⟩
  · exact ⟨hk, hdone, hclock, hdata, hpower, fun _ => hhigh le_rfl⟩

/-- Every row of a command keeps the conditions inside it (R120, R145, R170, R174). -/
theorem row_keeps_clockInside {s : State} {c : Instr} {k : Nat} (hk : k < eventCount c s.pulseCount)
    (h : clockInside c k s) : clockInside c (k + 1) (s.row c k) := by
  cases c with
  | setup => exact setupRow_keeps_clockInside hk h
  | setGain sel => exact absurd hk (Nat.not_lt_zero k)
  | isReady =>
    obtain ⟨-, hinside⟩ := h
    exact ⟨hk, hinside⟩
  | readRaw =>
    obtain ⟨-, hdone, hclock, hdata, hpower, hsck⟩ := h
    obtain ⟨hclock', hdata'⟩ := readRow_dirs s (k / 4) (k % 4)
    have hrow := emitsOne_row hk
    exact ⟨hrow.pulseCount ▸ hk, hrow.setupDone.trans hdone, hclock'.trans hclock, hdata'.trans hdata,
      hrow.power.trans hpower, readRow_clock hsck⟩
  | powerDown => exact powerDownRow_keeps_clockInside hk h
  | powerUp =>
    obtain ⟨-, hdone, hclock, hdata, hpower, -⟩ := h
    exact ⟨hk, hdone, hclock, hdata, hpower, fun _ => rfl⟩

/-- The end of a command turns the conditions at its last position into those of an idle block (R30, R121, R171, R175). -/
theorem lastRow_keeps_conditions {s t : State} {c : Instr} {k : Nat} (hk : eventCount c s.pulseCount ≤ k)
    (hcount : s.pulseCount ≠ 0#2) (hpins : s.clockPin ≠ s.dataPin) (h : clockInside c k s)
    (ht : s.lastRow c = .next t) : blockConditions t := by
  have ht := lastRow_next.mp ht
  cases c with
  | setup =>
    subst ht
    obtain ⟨hk', -, -, -, hclock, -, hdata, -, hlow⟩ := h
    obtain rfl : k = 5 := Nat.le_antisymm hk' hk
    exact ⟨rfl, hcount, hpins, nofun, fun _ => ⟨hclock (by decide), hdata (by decide), .inl ⟨rfl, hlow rfl⟩⟩⟩
  | setGain sel =>
    obtain ⟨n, hn, rfl⟩ := ht
    obtain ⟨-, hbefore, hafter⟩ := h
    exact ⟨rfl, pulseCountOf_ne_zero hn, hpins, hbefore, hafter⟩
  | isReady =>
    subst ht
    obtain ⟨-, hdone, hclock, hdata, hpower⟩ := h
    exact ⟨rfl, hcount, hpins, by simp [State.endPoll, hdone], fun _ => ⟨hclock, hdata, hpower⟩⟩
  | readRaw =>
    obtain ⟨-, rfl⟩ := ht
    obtain ⟨hk', hdone, hclock, hdata, hpower, hsck⟩ := h
    have hk : 96 + 4 * s.pulseCount.toNat ≤ k := hk
    have hlow : s.sck = low := eq_low_of_ne_high fun hhigh => by
      have hinside := hsck.mp hhigh
      omega
    exact ⟨rfl, hcount, hpins, by simp [State.endRead, hdone], fun _ => ⟨hclock, hdata, .inl ⟨hpower, hlow⟩⟩⟩
  | powerDown =>
    subst ht
    obtain ⟨-, hdone, hclock, hdata, -, hhigh⟩ := h
    have hk : 2 ≤ k := hk
    have hsck := hhigh (by omega)
    exact ⟨rfl, hcount, hpins, by simp [State.endPowerDown, hdone], fun _ => ⟨hclock, hdata, .inr ⟨rfl, hsck⟩⟩⟩
  | powerUp =>
    subst ht
    obtain ⟨hk', hdone, hclock, hdata, -, hlow⟩ := h
    have hsck := hlow (Nat.le_antisymm hk' hk)
    exact ⟨rfl, hcount, hpins, by simp [State.endPowerUp, hdone], fun _ => ⟨hclock, hdata, .inl ⟨rfl, hsck⟩⟩⟩

/-- The sequencer's conditions, by its position (R29). -/
theorem sequencerConditions_idle {s : State} (hq : s.seq = .idle) : sequencerConditions s ↔ blockConditions s := by
  simp only [sequencerConditions, hq]

theorem sequencerConditions_run {s : State} {c : Instr} {k : Nat} (hq : s.seq = .run c k) :
    sequencerConditions s ↔ s.pulseCount ≠ 0#2 ∧ s.clockPin ≠ s.dataPin ∧ clockInside c k s := by
  simp only [sequencerConditions, hq]

/-- Settles O43: an idle block's step by O42, a row and the end of a command by their own lemmas. -/
theorem stepKeepsSequencerConditions : Obligations.StepKeepsSequencerConditions := by
  intro s t hs h
  cases hq : s.seq with
  | idle =>
    have ht := stepKeepsBlockConditions s t ((sequencerConditions_idle hq).mp hs) h
    exact (sequencerConditions_idle ht.1).mpr ht
  | run c k =>
    obtain ⟨hcount, hpins, hinside⟩ := (sequencerConditions_run hq).mp hs
    by_cases hk : k < eventCount c s.pulseCount
    · rw [step_run_row hq hk] at h
      cases h
      have hrow := emitsOne_row hk
      refine (sequencerConditions_run (row_seq hq hk)).mpr ⟨?_, ?_, row_keeps_clockInside hk hinside⟩
      · rw [hrow.pulseCount]; exact hcount
      · rw [hrow.clockPin, hrow.dataPin]; exact hpins
    · have hk := Nat.not_lt.mp hk
      rw [step_run_last hq hk] at h
      have ht := lastRow_keeps_conditions hk hcount hpins hinside h
      exact (sequencerConditions_idle ht.1).mpr ht

end Sys2Proof.Machine
end

section
/-!
The reference chip on its own (spec/20_memory.md R72 to R81): what a conversion, an edge and the passing of time make of one chip,
the two levels at which it rests between commands, and the rows of its table (spec/95_test_vectors.md 2.8).
-/

namespace Sys2Proof.Machine

open Sys2Proof

/-- The one inversion lemma for a conversion: it changes nothing, in `DESYNC` the data and the tag, else it is offered (R79, R81). -/
theorem newConversion_cases (c : Chip) (tag : Selection) (p : Pattern) :
    c.newConversion tag p = c ∨ c.newConversion tag p = { c with data := p, dataSel := tag } ∨
      c.desync = false ∧ c.newConversion tag p =
        { c with sel := c.latched, dataSel := c.latched, data := p, cnt := 0, ready := true, dout := low } := by
  unfold Chip.newConversion
  split
  · exact .inl rfl
  · split
    · exact .inr (.inl rfl)
    · next hd => exact .inr (.inr ⟨eq_false_of_ne_true hd, rfl⟩)

@[simp] theorem newConversion_power (c : Chip) (tag : Selection) (p : Pattern) :
    (c.newConversion tag p).power = c.power := by
  obtain h | h | ⟨-, h⟩ := newConversion_cases c tag p <;> rw [h]

@[simp] theorem newConversion_highFor (c : Chip) (tag : Selection) (p : Pattern) :
    (c.newConversion tag p).highFor = c.highFor := by
  obtain h | h | ⟨-, h⟩ := newConversion_cases c tag p <;> rw [h]

/-- Between frames a synchronised chip that is on takes the conversion and offers it (R79). -/
theorem newConversion_enabled {c : Chip} (hp : c.power = .on) (hh : c.highFor = none) (hd : c.desync = false)
    (hc : c.cnt ∈ [0, 25, 26, 27]) (tag : Selection) (p : Pattern) : c.newConversion tag p =
      { c with sel := c.latched, dataSel := c.latched, data := p, cnt := 0, ready := true, dout := low } := by
  have hmay : c.mayConvert = true := by simpa [Chip.mayConvert, hp, hh, hd] using hc
  simp [Chip.newConversion, hmay, hd]

/-- A low level on a line that is low makes no edge (R54). -/
theorem drive_low_of_low {c : Chip} (hh : c.highFor = none) (kind : PulseKind) : c.drive kind low = c := by
  have hne : low ≠ high := by decide
  simp [Chip.drive, hh, hne]

/-- The falling edge wakes a chip asleep, whatever it ends (R78). -/
theorem drive_low_of_asleep {c : Chip} (hp : c.power = .asleep) (hh : c.highFor ≠ none) (kind : PulseKind) :
    c.drive kind low = Chip.wake { c with highFor := none } := by
  obtain ⟨held, hheld⟩ := Option.ne_none_iff_exists'.mp hh
  have hne : low ≠ high := by decide
  simp [Chip.drive, Chip.fall, hheld, hne, hp]

/-- Time passes unnoticed while the line is low (R77). -/
theorem elapse_of_low {c : Chip} (hh : c.highFor = none) (n : Nat) : c.elapse n = c := by
  simp [Chip.elapse, hh]

/-- A high held past the threshold is sleep (R77). -/
theorem elapse_long {c : Chip} {held n : Nat} (hh : c.highFor = some held) (hn : 60 < held + n) :
    c.elapse n = { c with highFor := some (held + n), power := .asleep, ready := false } := by
  have hn : Config.tPdThresh < held + n := hn
  simp [Chip.elapse, hh, hn]

/-- What a rising edge can make of a chip: the high begins, with one more frame pulse or the loss of the frame (R73, R81). -/
theorem rise_cases (kind : PulseKind) (c : Chip) : c.rise kind = { c with highFor := some 0 } ∨
    c.rise kind = Chip.pulse { c with highFor := some 0 } ∨ c.rise kind = Chip.lose { c with highFor := some 0 } := by
  unfold Chip.rise
  dsimp only
  split
  · exact .inl rfl
  · split
    · split
      · exact .inr (.inl rfl)
      · exact .inr (.inr rfl)
    · exact .inr (.inl rfl)
    · exact .inl rfl

/-- Every rising edge starts the high at 0 (R77). -/
theorem drive_high_highFor {c : Chip} (hh : c.highFor = none) (kind : PulseKind) :
    (c.drive kind high).highFor = some 0 := by
  have hpulse : ∀ d : Chip, d.pulse.highFor = d.highFor := by
    intro d
    unfold Chip.pulse
    split_ifs <;> rfl
  have hdrive : c.drive kind high = c.rise kind := by simp [Chip.drive, hh]
  obtain e | e | e := rise_cases kind c
  · rw [hdrive, e]
  · rw [hdrive, e, hpulse]
  · rw [hdrive, e]; rfl

/-- The first rise of a read that finds no conversion on offer loses the frame (R81). -/
theorem drive_first_not_ready {c : Chip} (hp : c.power = .on) (hh : c.highFor = none) (hr : c.ready = false) :
    (c.drive .first high).desync = true := by
  cases hd : c.desync <;> simp [Chip.drive, Chip.rise, Chip.lose, hp, hh, hr, hd]

/-- The only edge that takes a chip out of `DESYNC` is the wake (R81). -/
theorem drive_desync_false {c : Chip} (hd : c.desync = true) (kind : PulseKind) (v : Level) :
    (c.drive kind v).desync = false ↔ c.power = .asleep ∧ c.highFor ≠ none ∧ v = low := by
  by_cases hv : v = high
  · have hne : v ≠ low := by rw [hv]; decide
    cases hh : c.highFor <;> simp [Chip.drive, Chip.rise, hh, hv, hd]
  · obtain rfl := eq_low_of_ne_high hv
    by_cases hh : c.highFor = none
    · simp [drive_low_of_low hh, hd, hh]
    · cases hp : c.power with
      | asleep => simp [drive_low_of_asleep hp hh, Chip.wake, hh]
      | on =>
        obtain ⟨held, hheld⟩ := Option.ne_none_iff_exists'.mp hh
        simp only [Chip.drive, hheld, hv, if_false, Chip.fall, hp, reduceCtorEq, false_and, iff_false]
        split_ifs <;> simp [Chip.lose, hd]

/-- Settles O50. -/
theorem onlyWakeLeavesDesync : Obligations.OnlyWakeLeavesDesync := by
  intro c hd
  refine ⟨fun n => ?_, fun tag p => ?_, drive_desync_false hd⟩
  · rw [elapse_desync, hd]
  · rw [newConversion_desync, hd]

/-- The high of a sleep request that ends within the threshold loses the frame (R81, R234). -/
theorem request_cut_short {c : Chip} (hp : c.power = .on) {held : Nat} (hh : c.highFor = some held) :
    (c.drive .request low).desync = true := by
  have hne : low ≠ high := by decide
  simp [Chip.drive, Chip.fall, Chip.lose, hh, hp, hne]

/-- Settles O51, row by row. -/
theorem referenceChipRows : Obligations.ReferenceChipRows := by
  intro c hp hd hh
  have hsleep : ∀ kind n, 60 < n → ((c.drive kind high).elapse n).power = .asleep ∧
      ((c.drive kind high).elapse n).highFor ≠ none := by
    intro kind n hn
    rw [elapse_long (drive_high_highFor hh kind) (by omega)]
    exact ⟨rfl, nofun⟩
  refine ⟨fun hr hc kind hk => ?_, fun hc => ?_, fun hc tag p => ?_, fun hc tag p => ?_, fun kind n hn => ?_,
    fun kind kind' n hn => ?_, drive_first_not_ready hp hh, ?_, fun n hn => ?_⟩
  · rw [drive_rise hp hd hh hk fun _ => ⟨hr, hc⟩]
    simp [Chip.pulse, hr, hc, hd]
  · rw [drive_rise (kind := .later) hp hd hh nofun nofun]
    simp [Chip.pulse, hc]
  · rw [newConversion_enabled hp hh hd (by simp [hc]), latched_of_frame (sel := .b32) hc]
  · rw [newConversion_enabled hp hh hd (by simp [hc]), latched_of_unread hc]
    exact ⟨rfl, rfl, rfl⟩
  · exact (hsleep kind n hn).1
  · obtain ⟨hasleep, hhigh⟩ := hsleep kind n hn
    rw [drive_low_of_asleep hasleep hhigh]
    exact ⟨_, rfl, rfl, rfl, rfl, rfl, rfl, rfl⟩
  · simp [drive_request_high, hh]
  · rw [drive_request_high, hh, elapse_short (m := 0) rfl (by omega)]
    exact request_cut_short hp rfl

/-- The reference chip at rest between two commands, the clock driven at `v`: asleep when it is high (R171); on when it is low,
and then, if synchronised, its data line says whether a conversion is on offer (R72, R74, R79). -/
def Chip.Rests (v : Level) (c : Chip) : Prop :=
  (v = high → c.power = .asleep ∧ c.ready = false ∧ c.highFor ≠ none) ∧
  (v = low → c.power = .on ∧ c.highFor = none ∧
    (c.desync = false → (c.ready = true ∧ c.cnt = 0 ∧ c.dout = low) ∨
      (c.ready = false ∧ c.cnt ∈ [0, 25, 26, 27] ∧ c.dout = high)))

theorem chipConditions_iff {s : State} : chipConditions s ↔
    ∀ c, s.env.chip = some c → s.setupDone = true → c.Rests s.sck := Iff.rfl

theorem rests_high {c : Chip} : c.Rests high ↔ c.power = .asleep ∧ c.ready = false ∧ c.highFor ≠ none := by
  have hne : high ≠ low := by decide
  simp [Chip.Rests, hne]

theorem rests_low {c : Chip} : c.Rests low ↔ c.power = .on ∧ c.highFor = none ∧
    (c.desync = false → (c.ready = true ∧ c.cnt = 0 ∧ c.dout = low) ∨
      (c.ready = false ∧ c.cnt ∈ [0, 25, 26, 27] ∧ c.dout = high)) := by
  have hne : low ≠ high := by decide
  simp [Chip.Rests, hne]

/-- A conversion keeps the chip at rest: with the line high there is none, with the line low it is put on offer (R79). -/
theorem newConversion_rests {v : Level} (tag : Selection) (p : Pattern) (c : Chip) (h : c.Rests v) :
    (c.newConversion tag p).Rests v := by
  obtain e | e | ⟨-, e⟩ := newConversion_cases c tag p
  · rw [e]; exact h
  · rw [e]; exact h
  · by_cases hv : v = high
    · obtain ⟨-, -, hhigh⟩ := h.1 hv
      rw [newConversion_disabled (mayConvert_of_high hhigh)]
      exact h
    · obtain rfl := eq_low_of_ne_high hv
      obtain ⟨hp, hh, -⟩ := rests_low.mp h
      rw [e]
      exact rests_low.mpr ⟨hp, hh, fun _ => .inl ⟨rfl, rfl, rfl⟩⟩

theorem newConversion_synced (tag : Selection) (p : Pattern) (c : Chip) (h : c.desync = false) :
    (c.newConversion tag p).desync = false := by rw [newConversion_desync, h]

/-- A conversion on offer and not begun stays on offer, or is replaced by one that is (R79). -/
theorem newConversion_unread (tag : Selection) (p : Pattern) (c : Chip) (h : c.ready = true ∧ c.cnt = 0) :
    (c.newConversion tag p).ready = true ∧ (c.newConversion tag p).cnt = 0 := by
  obtain e | e | ⟨-, e⟩ := newConversion_cases c tag p
  · rw [e]; exact h
  · rw [e]; exact h
  · rw [e]; exact ⟨rfl, rfl⟩

/-- The chip as a wake leaves it (R78). -/
def Chip.Woken (c : Chip) : Prop :=
  c.power = .on ∧ c.highFor = none ∧ c.desync = false ∧ c.sel = .a128 ∧ c.ready = false ∧ c.cnt = 0 ∧ c.dout = high

theorem woken_rests {c : Chip} (h : c.Woken) : c.Rests low := by
  obtain ⟨hp, hh, -, -, hr, hc, hout⟩ := h
  exact rests_low.mpr ⟨hp, hh, fun _ => .inr ⟨hr, by simp [hc], hout⟩⟩

/-- The falling edge after a sleep wakes and resets the chip (R78). -/
theorem drive_low_woken {c : Chip} (h : c.Rests high) (kind : PulseKind) : (c.drive kind low).Woken := by
  obtain ⟨hp, -, hh⟩ := rests_high.mp h
  rw [drive_low_of_asleep hp hh]
  exact ⟨rfl, rfl, rfl, rfl, rfl, rfl, rfl⟩

/-- The high of a sleep request, held for `T_PD_HOLD_MIN`, puts every chip to sleep (R77, R171). -/
theorem sleepRequest_rests (c : Chip) : ((c.drive .request high).elapse Config.tPdHoldMin).Rests high := by
  rw [drive_request_high, elapse_long rfl (by simp only [Config.tPdHoldMin]; omega)]
  exact rests_high.mpr ⟨rfl, rfl, nofun⟩

/-- It is no frame pulse, so no chip loses a frame by it (R103). -/
theorem sleepRequest_desync (c : Chip) : ((c.drive .request high).elapse Config.tPdHoldMin).desync = c.desync := by
  rw [elapse_desync, drive_request_high]

end Sys2Proof.Machine
end

section
/-!
The reference chip through the primitives and through whole commands (spec/20_memory.md R54 to R57, R66), for every schedule of its
conversions: that it stays attached, how `SETUP`, `POWER_DOWN`, `POWER_UP` and a poll leave it, and a read in step or out of step.
-/

namespace Sys2Proof.Machine

open Sys2Proof

/-! ## An attached chip stays attached -/

theorem memWrite_isSome (s : State) (v : Level) : (s.memWrite v).env.chip.isSome = s.env.chip.isSome := by
  rw [memWrite_env]
  split <;> simp [turn_isSome]

theorem delay_isSome (s : State) (n : Nat) : (s.delay n).env.chip.isSome = s.env.chip.isSome := by
  simp [turn_isSome]

theorem bitCycle_isSome (s : State) : s.bitCycle.env.chip.isSome = s.env.chip.isSome := by
  have hsample : ∀ u : State, u.sampleBit.env.chip.isSome = u.env.chip.isSome := fun u => by simp [turn_isSome]
  rw [State.bitCycle, memWrite_isSome, hsample, delay_isSome, memWrite_isSome]

theorem selPulse_isSome (s : State) : s.selPulse.env.chip.isSome = s.env.chip.isSome := by
  rw [State.selPulse, delay_isSome, memWrite_isSome, delay_isSome, memWrite_isSome]

theorem bitCycles_isSome (n : Nat) (s : State) : (State.bitCycles n s).env.chip.isSome = s.env.chip.isSome := by
  induction n generalizing s with
  | zero => rfl
  | succ n ih => rw [State.bitCycles, ih, bitCycle_isSome]

theorem selPulses_isSome (n : Nat) (s : State) : (State.selPulses n s).env.chip.isSome = s.env.chip.isSome := by
  induction n generalizing s with
  | zero => rfl
  | succ n ih => rw [State.selPulses, ih, selPulse_isSome]

theorem pinModeClock_isSome (s : State) : s.pinModeClock.env.chip.isSome = s.env.chip.isSome := by
  unfold State.pinModeClock
  split <;> simp [turn_isSome]

theorem setupBody_isSome (s : State) : s.setupBody.env.chip.isSome = s.env.chip.isSome := by
  have hdata : ∀ u : State, u.pinModeData.env.chip.isSome = u.env.chip.isSome := fun u => by
    rw [pinModeData_env, turn_isSome]
  simp only [State.setupBody, State.endSetup, finish_env]
  rw [memWrite_isSome, delay_isSome, memWrite_isSome, hdata, pinModeClock_isSome, accept_env]

/-- No command attaches or detaches a reference chip (R57). -/
theorem exec_isSome {i : Instr} {s t : State} (h : exec i s = .next t) : t.env.chip.isSome = s.env.chip.isSome := by
  obtain ⟨-, h⟩ := exec_next.mp h
  cases i with
  | setup =>
    obtain ⟨-, rfl⟩ := h
    exact setupBody_isSome s
  | setGain sel =>
    obtain ⟨n, -, rfl⟩ := h
    rfl
  | isReady =>
    obtain ⟨-, rfl⟩ := h
    simp [State.endPoll, turn_isSome]
  | readRaw =>
    obtain ⟨-, -, -, rfl⟩ := h
    simp only [State.readRawBody, State.endRead, finish_env, respond_env]
    rw [selPulses_isSome, bitCycles_isSome, accept_env]
  | powerDown =>
    obtain ⟨-, rfl⟩ := h
    rw [powerDownBody_eq, delay_isSome, memWrite_isSome, accept_env]
  | powerUp =>
    obtain ⟨-, rfl⟩ := h
    rw [powerUpBody_eq, memWrite_isSome, accept_env]

/-! ## What is known of the chip, through the primitives -/

/-- A reference chip is attached and `P` is true of it. -/
def Env.ChipIs (P : Chip → Prop) (e : Env) : Prop := ∃ c, e.chip = some c ∧ P c

theorem chipIs_mono {P Q : Chip → Prop} {e : Env} (hPQ : ∀ c, P c → Q c) (h : e.ChipIs P) : e.ChipIs Q :=
  h.imp fun c ⟨hc, hP⟩ => ⟨hc, hPQ c hP⟩

/-- What is known of an attached chip is known of the one there is. -/
theorem chipIs_apply {P : Chip → Prop} {e : Env} {c : Chip} (h : e.ChipIs P) (hc : e.chip = some c) : P c := by
  obtain ⟨d, hd, hP⟩ := h
  rw [hc] at hd
  cases hd
  exact hP

/-- The chip's turn keeps what every conversion keeps (R66, R79). -/
theorem turn_chipIs {P : Chip → Prop} (hP : ∀ tag p c, P c → P (c.newConversion tag p)) {e : Env} (h : e.ChipIs P)
    (mid : Bool) : (e.turn mid).ChipIs P := by
  obtain ⟨c, hc, hPc⟩ := h
  obtain ⟨d, hd⟩ := Option.isSome_iff_exists.mp (by rw [turn_isSome, hc]; rfl : (e.turn mid).chip.isSome)
  exact ⟨d, hd, turn_keeps P hP e mid (fun c' hc' => by rw [hc] at hc'; cases hc'; exact hPc) d hd⟩

/-- A write to the configured clock is an edge for the chip as it is after its turn (R54). -/
theorem memWrite_chipIs {P Q : Chip → Prop} {s : State} {v : Level} (hdir : s.sckDir = .output)
    (h : (s.env.turn s.midFrame).ChipIs P) (hPQ : ∀ c, P c → Q (c.drive s.pulseKind v)) : (s.memWrite v).env.ChipIs Q := by
  obtain ⟨c, hc, hP⟩ := h
  exact ⟨_, by simp [hdir, hc], hPQ c hP⟩

theorem delay_chipIs {P Q : Chip → Prop} {s : State} {n : Nat} (h : (s.env.turn s.midFrame).ChipIs P)
    (hPQ : ∀ c, P c → Q (c.elapse n)) : (s.delay n).env.ChipIs Q := by
  obtain ⟨c, hc, hP⟩ := h
  exact ⟨_, by simp [hc], hPQ c hP⟩

/-- A sample has no effect on the chip (R55). -/
theorem sample_chipIs {P : Chip → Prop} {e : Env} (h : e.ChipIs P) : e.sample.2.ChipIs P := by
  obtain ⟨c, hc, hP⟩ := h
  exact ⟨c, by rw [sample_chip, hc], hP⟩

/-! ## `SETUP`, `POWER_DOWN`, `POWER_UP` and a poll -/

/-- A sleep request, from any chip: it sleeps, and is as synchronised as it was (R103, R171). -/
theorem sleepRequest_chipIs {b : Bool} {s : State} (hdir : s.sckDir = .output) (hkind : s.pulseKind = .request)
    (h : s.env.ChipIs fun c => c.desync = b) :
    ((s.memWrite high).delay Config.tPdHoldMin).env.ChipIs fun c => c.Rests high ∧ c.desync = b := by
  obtain ⟨c, hc, hb⟩ := turn_chipIs (fun tag p c hb => (newConversion_desync c tag p).trans hb) h s.midFrame
  have hrise : (s.memWrite high).env.chip = some (c.drive .request high) := by simp [hdir, hc, hkind]
  have hhigh : (c.drive .request high).highFor ≠ none := by rw [drive_request_high]; nofun
  exact ⟨_, delay_env_of_high hrise hhigh _, sleepRequest_rests c, by rw [sleepRequest_desync, hb]⟩

/-- The write that wakes a chip at rest with the line high (R78). -/
theorem wake_chipIs {s : State} (hdir : s.sckDir = .output) (h : s.env.ChipIs (Chip.Rests high)) :
    (s.memWrite low).env.ChipIs Chip.Woken :=
  memWrite_chipIs hdir (turn_chipIs newConversion_rests h _) fun _ hc => drive_low_woken hc _

/-- A chip at rest with the line low sees no edge of `POWER_UP` (R177). -/
theorem low_stays_chipIs {P : Chip → Prop} {s : State} (hdir : s.sckDir = .output) (hlow : ∀ c, P c → c.highFor = none)
    (h : (s.env.turn s.midFrame).ChipIs P) : (s.memWrite low).env.ChipIs P :=
  memWrite_chipIs hdir h fun c hc => by rw [drive_low_of_low (hlow c hc)]; exact hc

/-- `SETUP` brings every chip into one state (R121, R222). -/
theorem setupBody_chipIs {s : State} (h : s.env.chip.isSome) : s.setupBody.env.ChipIs Chip.Woken := by
  have hdata : (s.accept .setup).pinModeClock.pinModeData.env.chip.isSome := by
    rw [pinModeData_env, turn_isSome, pinModeClock_isSome, accept_env]
    exact h
  obtain ⟨c, hc⟩ := Option.isSome_iff_exists.mp hdata
  have hsleep := sleepRequest_chipIs (b := c.desync) rfl rfl ⟨c, hc, rfl⟩
  exact wake_chipIs rfl (chipIs_mono (fun _ hd => hd.1) hsleep)

theorem powerDownBody_chipIs {b : Bool} {s : State} (hdir : s.sckDir = .output) (h : s.env.ChipIs fun c => c.desync = b) :
    (((s.accept .powerDown).memWrite high).delay Config.tPdHoldMin).env.ChipIs fun c => c.Rests high ∧ c.desync = b :=
  sleepRequest_chipIs (by rw [accept_sckDir, hdir]) rfl (by rw [accept_env]; exact h)

theorem powerUpBody_wakes {s : State} (hdir : s.sckDir = .output) (h : s.env.ChipIs (Chip.Rests high)) :
    ((s.accept .powerUp).memWrite low).env.ChipIs Chip.Woken :=
  wake_chipIs (by rw [accept_sckDir, hdir]) (by rw [accept_env]; exact h)

/-- `POWER_UP` with the line low gives the chip its turn and nothing else (R177). -/
theorem powerUpBody_low {P : Chip → Prop} (hP : ∀ tag p c, P c → P (c.newConversion tag p))
    (hlow : ∀ c, P c → c.highFor = none) {s : State} (hdir : s.sckDir = .output) (h : s.env.ChipIs P) :
    ((s.accept .powerUp).memWrite low).env.ChipIs P :=
  low_stays_chipIs (by rw [accept_sckDir, hdir]) hlow (turn_chipIs hP (by rw [accept_env]; exact h) _)

/-- A poll gives the chip its turn and nothing else (R55). -/
theorem pollBody_chipIs {P : Chip → Prop} (hP : ∀ tag p c, P c → P (c.newConversion tag p)) {s : State}
    (h : s.env.ChipIs P) : (s.accept .isReady).poll.env.ChipIs P :=
  sample_chipIs (turn_chipIs hP (by rw [accept_env]; exact h) _)

/-! ## A read out of step -/

/-- A chip in `DESYNC` that is on, the clock high for the time `h` or low. -/
def Chip.Adrift (h : Option Nat) (c : Chip) : Prop := c.power = .on ∧ c.desync = true ∧ c.highFor = h

/-- A chip that the next pulse of the given kind leaves in `DESYNC` (R81): it is there, or a read starts with nothing on offer. -/
def Chip.Stumbles (kind : PulseKind) (c : Chip) : Prop :=
  c.power = .on ∧ c.highFor = none ∧ (c.desync = true ∨ kind = .first ∧ c.ready = false)

theorem newConversion_adrift {h : Option Nat} (tag : Selection) (p : Pattern) (c : Chip) (hc : c.Adrift h) :
    (c.newConversion tag p).Adrift h := by
  obtain ⟨hp, hd, hh⟩ := hc
  exact ⟨by rw [newConversion_power, hp], by rw [newConversion_desync, hd], by rw [newConversion_highFor, hh]⟩

theorem adrift_stumbles {c : Chip} (h : c.Adrift none) (kind : PulseKind) : c.Stumbles kind :=
  ⟨h.1, h.2.2, .inl h.2.1⟩

theorem adrift_rests {c : Chip} (h : c.Adrift none) : c.Rests low := by
  obtain ⟨hp, hd, hh⟩ := h
  exact rests_low.mpr ⟨hp, hh, by simp [hd]⟩

/-- The rise of a pulse on such a chip (R81). -/
theorem drive_high_adrift {kind : PulseKind} {c : Chip} (h : c.Stumbles kind) : (c.drive kind high).Adrift (some 0) := by
  obtain ⟨hp, hh, hd | ⟨rfl, hr⟩⟩ := h
  · simp [Chip.Adrift, Chip.drive, Chip.rise, hp, hh, hd]
  · cases hd : c.desync <;> simp [Chip.Adrift, Chip.drive, Chip.rise, Chip.lose, hp, hh, hr, hd]

theorem elapse_adrift {m n : Nat} (hn : m + n ≤ 60) {c : Chip} (h : c.Adrift (some m)) :
    (c.elapse n).Adrift (some (m + n)) := by
  obtain ⟨hp, hd, hh⟩ := h
  rw [elapse_short hh hn]
  exact ⟨hp, hd, rfl⟩

theorem drive_low_adrift {n : Nat} (hn : 2 ≤ n) {kind : PulseKind} (hk : kind ≠ .request) {c : Chip}
    (h : c.Adrift (some n)) : (c.drive kind low).Adrift none := by
  obtain ⟨hp, hd, hh⟩ := h
  rw [drive_fall hp hh hn hk]
  exact ⟨hp, hd, rfl⟩

/-- The block is in the middle of a read, its clock low, and the chip is in `DESYNC`. -/
def State.ReadsAdrift (s : State) : Prop :=
  s.sckDir = .output ∧ (∃ k, s.seq = .run .readRaw k) ∧ s.env.ChipIs (Chip.Adrift none)

/-- Every edge of a read is one of a frame pulse (R103). -/
theorem pulseKind_ne_request {s : State} {k : Nat} (hq : s.seq = .run .readRaw k) : s.pulseKind ≠ .request := by
  rcases Nat.eq_zero_or_pos k with rfl | hk
  · rw [pulseKind_first hq]; nofun
  · rw [pulseKind_later hq hk]; nofun

/-- A pulse's rise and its hold, no longer than the threshold. -/
theorem hold_adrift {s : State} {n : Nat} (hdir : s.sckDir = .output) (hn : n ≤ 60)
    (h : (s.env.turn s.midFrame).ChipIs (Chip.Stumbles s.pulseKind)) :
    ((s.memWrite high).delay n).env.ChipIs (Chip.Adrift (some n)) := by
  have hrise : (s.memWrite high).env.ChipIs (Chip.Adrift (some 0)) :=
    memWrite_chipIs hdir h fun _ hc => drive_high_adrift hc
  refine delay_chipIs (turn_chipIs newConversion_adrift hrise _) fun c hc => ?_
  simpa using elapse_adrift (by omega) hc

/-- The fall that ends it. -/
theorem fall_adrift {s : State} {n k : Nat} (hdir : s.sckDir = .output) (hq : s.seq = .run .readRaw k) (hn : 2 ≤ n)
    (h : s.env.ChipIs (Chip.Adrift (some n))) : (s.memWrite low).env.ChipIs (Chip.Adrift none) :=
  memWrite_chipIs hdir (turn_chipIs newConversion_adrift h _) fun _ hc =>
    drive_low_adrift hn (pulseKind_ne_request hq) hc

/-- A bit cycle that starts on a chip out of step (R81, R153(d)). -/
theorem bitCycle_readsAdrift {s : State} {k : Nat} (hdir : s.sckDir = .output) (hq : s.seq = .run .readRaw k)
    (h : (s.env.turn s.midFrame).ChipIs (Chip.Stumbles s.pulseKind)) : s.bitCycle.ReadsAdrift := by
  have hhold := hold_adrift hdir (n := Config.tBitHighMin) (by decide) h
  have hsample : ((s.memWrite high).delay Config.tBitHighMin).sampleBit.env.ChipIs (Chip.Adrift (some Config.tBitHighMin)) :=
    sample_chipIs (turn_chipIs newConversion_adrift hhold _)
  refine ⟨by simp [State.bitCycle, hdir], ⟨k + 4, by rw [bitCycle_seq, hq, bumps_run]⟩, ?_⟩
  exact fall_adrift (k := k + 3) (by simp [hdir]) (by simp [hq, Seq.bump]) (by decide) hsample

/-- Once adrift, every further bit cycle and selection pulse leaves the chip so (R81). -/
theorem readsAdrift_turn {s : State} (h : s.env.ChipIs (Chip.Adrift none)) (kind : PulseKind) :
    (s.env.turn s.midFrame).ChipIs (Chip.Stumbles kind) :=
  chipIs_mono (fun _ hc => adrift_stumbles hc kind) (turn_chipIs newConversion_adrift h _)

theorem bitCycles_readsAdrift (n : Nat) {s : State} (h : s.ReadsAdrift) : (State.bitCycles n s).ReadsAdrift := by
  induction n generalizing s with
  | zero => exact h
  | succ n ih =>
    obtain ⟨hdir, ⟨k, hq⟩, hc⟩ := h
    exact ih (bitCycle_readsAdrift hdir hq (readsAdrift_turn hc _))

theorem selPulse_readsAdrift {s : State} (h : s.ReadsAdrift) : s.selPulse.ReadsAdrift := by
  obtain ⟨hdir, ⟨k, hq⟩, hc⟩ := h
  obtain ⟨hmin, hmax⟩ := tSelHigh_bounds
  have hhold := hold_adrift hdir (n := Config.tSelHigh) (le_of_lt hmax) (readsAdrift_turn hc _)
  have hfall := fall_adrift (k := k + 2) (by simp [hdir]) (by simp [hq, Seq.bump]) hmin hhold
  refine ⟨by simp [State.selPulse, hdir], ⟨k + 4, by simp [State.selPulse, hq, Seq.bump]⟩, ?_⟩
  refine delay_chipIs (turn_chipIs newConversion_adrift hfall _) fun c hc => ?_
  rw [elapse_of_low hc.2.2]
  exact hc

theorem selPulses_readsAdrift (n : Nat) {s : State} (h : s.ReadsAdrift) : (State.selPulses n s).ReadsAdrift := by
  induction n generalizing s with
  | zero => exact h
  | succ n ih => exact ih (selPulse_readsAdrift h)

/-- A read of a chip out of step leaves it in `DESYNC`, on and with the line low (R81, R153(d), R236). -/
theorem readRawBody_adrift {s : State} (hdir : s.sckDir = .output)
    (h : (s.env.turn false).ChipIs (Chip.Stumbles .first)) : s.readRawBody.env.ChipIs (Chip.Adrift none) := by
  have hfirst : (s.accept .readRaw).bitCycle.ReadsAdrift :=
    bitCycle_readsAdrift (k := 0) (by rw [accept_sckDir, hdir]) (accept_seq s _) h
  have hbits : (State.bitCycles Config.dataBits (s.accept .readRaw)).ReadsAdrift := bitCycles_readsAdrift 23 hfirst
  obtain ⟨-, -, hc⟩ := selPulses_readsAdrift _ hbits
  exact hc

end Sys2Proof.Machine
end

section
/-!
What the block and the reference chip keep together, and what a read returns (spec/20_memory.md R60, R72, R81;
spec/70_reset_and_hazards.md R223, R230, R231, R236): for every schedule of the chip's conversions.
-/

namespace Sys2Proof.Machine

open Sys2Proof

/-! ## The conditions of the chip -/

/-- After `SETUP` the pins are configured, and the clock is low or high. -/
theorem clock_configured {s : State} (hb : blockConditions s) (hdone : s.setupDone = true) :
    s.sckDir = .output ∧ (s.sck = low ∨ s.sck = high) := by
  obtain ⟨-, -, -, -, hafter⟩ := hb
  obtain ⟨hdir, -, hpower⟩ := hafter hdone
  exact ⟨hdir, hpower.imp And.right And.right⟩

/-- The chip after a whole frame of a read in step: it rests with the line low (R74). -/
theorem frame_rests {c : Chip} {n : BitVec 2} (hn : n ≠ 0#2) (hp : c.power = .on) (hh : c.highFor = none) :
    Chip.Rests low { c with cnt := 24 + n.toNat, ready := false, dout := high } := by
  obtain ⟨hmin, hmax⟩ := pulseCount_pos hn
  have hframe : 24 + n.toNat = 25 ∨ 24 + n.toNat = 26 ∨ 24 + n.toNat = 27 := by omega
  exact rests_low.mpr ⟨hp, hh, fun _ => .inr ⟨rfl, by simpa using hframe, rfl⟩⟩

/-- A read leaves the chip at rest, whether it starts in step with the chip or not (R74, R81). -/
theorem readRawBody_rests {s : State} (hdir : s.sckDir = .output) (hn : s.pulseCount ≠ 0#2)
    (h : s.env.ChipIs (Chip.Rests low)) : s.readRawBody.env.ChipIs (Chip.Rests low) := by
  obtain ⟨c, hc, hrests⟩ := turn_chipIs newConversion_rests h false
  obtain ⟨hp, hh, hsynced⟩ := rests_low.mp hrests
  by_cases hstep : c.desync = false ∧ c.ready = true
  · obtain ⟨hd, hr⟩ := hstep
    have hcnt : c.cnt = 0 := by
      obtain ⟨-, hcnt, -⟩ | ⟨hr', -⟩ := hsynced hd
      · exact hcnt
      · exact absurd (hr.symm.trans hr') nofun
    obtain ⟨-, e, he, hbody, -⟩ := readRawBody_chip hdir hn hc hp hd hh hr hcnt
    obtain ⟨d, hd, hrest⟩ := turn_chipIs newConversion_rests ⟨_, he, frame_rests hn hp hh⟩ false
    exact ⟨d, hbody.trans hd, hrest⟩
  · have hstumbles : c.Stumbles .first := ⟨hp, hh, by simpa [Decidable.imp_iff_not_or] using hstep⟩
    exact chipIs_mono (fun _ => adrift_rests) (readRawBody_adrift hdir ⟨c, hc, hstumbles⟩)

/-- A command that ends with a next state leaves the chip at rest at the level of the clock (R72, R74, R77, R78). -/
theorem exec_rests {i : Instr} {s t : State} (hb : blockConditions s) (hc : chipConditions s) (h : exec i s = .next t)
    (hdone : t.setupDone = true) (hchip : s.env.chip.isSome) : t.env.ChipIs (Chip.Rests t.sck) := by
  obtain ⟨c, hc0⟩ := Option.isSome_iff_exists.mp hchip
  have hrests : s.setupDone = true → s.env.ChipIs (Chip.Rests s.sck) := fun hd => ⟨c, hc0, hc c hc0 hd⟩
  obtain ⟨-, h⟩ := exec_next.mp h
  cases i with
  | setup =>
    obtain ⟨-, rfl⟩ := h
    have hsck : s.setupBody.sck = low := by rw [setupBody_eq]
    rw [hsck]
    exact chipIs_mono (fun _ => woken_rests) (setupBody_chipIs hchip)
  | setGain sel =>
    obtain ⟨n, -, rfl⟩ := h
    exact hrests hdone
  | isReady =>
    obtain ⟨hs, rfl⟩ := h
    rw [isReadyBody_eq]
    exact pollBody_chipIs newConversion_rests (hrests hs)
  | readRaw =>
    obtain ⟨hs, hlow, hn, rfl⟩ := h
    obtain ⟨hdir, -⟩ := clock_configured hb hs
    have hsck : s.readRawBody.sck = low := by
      obtain ⟨bs, e, -, hbody, -⟩ := readRawBody_spec s
      rw [hbody]
    rw [hsck]
    exact readRawBody_rests hdir hn (hlow ▸ hrests hs)
  | powerDown =>
    obtain ⟨hs, rfl⟩ := h
    obtain ⟨hdir, -⟩ := clock_configured hb hs
    rw [powerDownBody_eq]
    exact chipIs_mono (fun _ hd => hd.1) (powerDownBody_chipIs (b := c.desync) hdir ⟨c, hc0, rfl⟩)
  | powerUp =>
    obtain ⟨hs, rfl⟩ := h
    obtain ⟨hdir, hlow | hhigh⟩ := clock_configured hb hs
    · rw [powerUpBody_eq]
      exact powerUpBody_low newConversion_rests (fun _ hd => (rests_low.mp hd).2.1) hdir (hlow ▸ hrests hs)
    · rw [powerUpBody_eq]
      exact chipIs_mono (fun _ => woken_rests) (powerUpBody_wakes hdir (hhigh ▸ hrests hs))

/-- R72, R77, R78: every command keeps the conditions of the chip, if there is one. -/
theorem exec_keeps_chipConditions {i : Instr} {s t : State} (hb : blockConditions s) (hc : chipConditions s)
    (h : exec i s = .next t) : chipConditions t := by
  refine chipConditions_iff.mpr fun c hct hdone => chipIs_apply (exec_rests hb hc h hdone ?_) hct
  rw [← exec_isSome h, hct]
  rfl

/-- Settles O44: a wait is the chip's turn, and every command keeps the conditions. -/
theorem stepKeepsChipConditions : Obligations.StepKeepsChipConditions := by
  intro s t hb hc h
  obtain ⟨-, rfl⟩ | ⟨w, rest, i, -, -, h⟩ := (step_idle_next hb.1).mp h
  · exact fun c hct hdone =>
      turn_keeps (Chip.Rests s.sck) newConversion_rests s.env s.midFrame (fun d hd => hc d hd hdone) c hct
  · exact exec_keeps_chipConditions (s := { s with commands := rest }) hb hc h

/-! ## The contract -/

/-- A caller with a poll that answered 1 behind it has polled last, or has only changed the selection since (R230). -/
theorem exec_polledReady {i : Instr} {s t : State} (h : exec i s = .next t) (hpoll : t.polledReady = true) :
    i = .isReady ∨ ∃ sel, i = .setGain sel := by
  have hlast : t.trace.getLast? = some (.rd t.dataPin low) := by simpa [State.polledReady] using hpoll
  obtain ⟨-, h⟩ := exec_next.mp h
  cases i with
  | setup =>
    obtain ⟨-, rfl⟩ := h
    rw [setupBody_eq] at hlast
    simp [setupTrace] at hlast
  | setGain sel => exact .inr ⟨sel, rfl⟩
  | isReady => exact .inl rfl
  | readRaw =>
    obtain ⟨-, -, hn, rfl⟩ := h
    obtain ⟨bs, e, -, hbody, -⟩ := readRawBody_spec s
    obtain ⟨n, hn⟩ : ∃ n, s.pulseCount.toNat = n + 1 := Nat.exists_eq_add_of_le' (pulseCount_pos hn).1
    rw [hbody] at hlast
    simp [readTrace, hn, ← selTrace_append, selTrace] at hlast
  | powerDown =>
    obtain ⟨-, rfl⟩ := h
    rw [powerDownBody_eq] at hlast
    simp at hlast
  | powerUp =>
    obtain ⟨-, rfl⟩ := h
    rw [powerUpBody_eq] at hlast
    simp at hlast

/-- A poll that answers 1 to a synchronised chip at rest has seen a conversion on offer (R72, R140). -/
theorem poll_tells {s : State} {c : Chip} (h : (s.env.turn false).chip = some c) (hrests : c.Rests low)
    (hd : c.desync = false) (hlow : (s.accept .isReady).memRead.1 = low) : c.ready = true ∧ c.cnt = 0 := by
  obtain ⟨hp, hh, hsynced⟩ := rests_low.mp hrests
  have hdout : (s.accept .isReady).memRead.1 = c.dout := by
    show (Env.sample (s.env.turn false)).1 = c.dout
    simp [Env.sample, h, Chip.definite, hp, hd, hh]
  obtain ⟨hr, hcnt, -⟩ | ⟨-, -, hhigh⟩ := hsynced hd
  · exact ⟨hr, hcnt⟩
  · rw [hdout, hhigh] at hlow
    exact absurd hlow (by decide)

/-- R230: what the last poll told is still true after every command. -/
theorem exec_keeps_pollTells {i : Instr} {s t : State} (hc : chipConditions s) (hpoll : pollTells s)
    (h : exec i s = .next t) : pollTells t := by
  intro c hct hdone hlow hd hready
  obtain rfl | ⟨sel, rfl⟩ := exec_polledReady h hready
  · obtain ⟨-, hs, rfl⟩ := exec_next.mp h
    rw [isReadyBody_eq] at hct hlow hready
    have hct : (s.env.turn false).chip = some c := (sample_chip _).symm.trans hct
    have hrests := turn_keeps (Chip.Rests low) newConversion_rests s.env false (fun d hd => hlow ▸ hc d hd hs) c hct
    exact poll_tells hct hrests hd (by simpa [State.polledReady] using hready)
  · obtain ⟨-, n, -, rfl⟩ := exec_next.mp h
    exact hpoll c hct hdone hlow hd hready

/-- What the last poll told a caller is still true after the chip's turn, and so is that it is synchronised (R230). -/
theorem turn_keeps_pollTells {s : State} {c : Chip} {mid : Bool} (hpoll : pollTells s) (hsync : synchronised s)
    (hdone : s.setupDone = true) (h : (s.env.turn mid).chip = some c) :
    c.desync = false ∧ (s.sck = low → s.polledReady = true → c.ready = true ∧ c.cnt = 0) := by
  refine ⟨?_, fun hlow hready => ?_⟩
  · exact turn_keeps (·.desync = false) newConversion_synced s.env mid (fun d hd => hsync d hd hdone) c h
  · exact turn_keeps (fun d => d.ready = true ∧ d.cnt = 0) newConversion_unread s.env mid
      (fun d hd => hpoll d hd hdone hlow (hsync d hd hdone) hready) c h

/-- R230: before a permitted read the chip is on, in step and ready, also after its turn before the first rising edge. -/
theorem permitted_read_ready {s : State} {c : Chip} (hc : chipConditions s) (hpoll : pollTells s)
    (hsync : synchronised s) (hperm : permitted s .readRaw = true) (h : (s.env.turn false).chip = some c) :
    c.power = .on ∧ c.highFor = none ∧ c.desync = false ∧ c.ready = true ∧ c.cnt = 0 := by
  simp only [permitted, Bool.and_eq_true, decide_eq_true_eq] at hperm
  obtain ⟨⟨hdone, hlow⟩, hpolled⟩ := hperm
  have hrests := turn_keeps (Chip.Rests low) newConversion_rests s.env false (fun d hd => hlow ▸ hc d hd hdone) c h
  obtain ⟨hp, hh, -⟩ := rests_low.mp hrests
  obtain ⟨hd, hready⟩ := turn_keeps_pollTells hpoll hsync hdone h
  exact ⟨hp, hh, hd, hready hlow hpolled⟩

/-- R223: every command the contract permits leaves a synchronised chip synchronised. -/
theorem exec_chip_synced {i : Instr} {s t : State} (hb : blockConditions s) (hc : chipConditions s) (hpoll : pollTells s)
    (hsync : synchronised s) (hperm : permitted s i = true) (h : exec i s = .next t) (hdone : t.setupDone = true)
    (hchip : s.env.chip.isSome) : t.env.ChipIs (·.desync = false) := by
  obtain ⟨c, hc0⟩ := Option.isSome_iff_exists.mp hchip
  have hsynced : s.setupDone = true → s.env.ChipIs (·.desync = false) := fun hd => ⟨c, hc0, hsync c hc0 hd⟩
  have hrests : s.setupDone = true → s.env.ChipIs (Chip.Rests s.sck) := fun hd => ⟨c, hc0, hc c hc0 hd⟩
  obtain ⟨-, h⟩ := exec_next.mp h
  cases i with
  | setup =>
    obtain ⟨-, rfl⟩ := h
    exact chipIs_mono (fun _ hd => hd.2.2.1) (setupBody_chipIs hchip)
  | setGain sel =>
    obtain ⟨n, -, rfl⟩ := h
    exact hsynced hdone
  | isReady =>
    obtain ⟨hs, rfl⟩ := h
    exact pollBody_chipIs newConversion_synced (hsynced hs)
  | readRaw =>
    obtain ⟨hs, -, hn, rfl⟩ := h
    obtain ⟨hdir, -⟩ := clock_configured hb hs
    obtain ⟨d, hd, -⟩ := turn_chipIs newConversion_synced (hsynced hs) false
    obtain ⟨hp, hh, hds, hr, hcnt⟩ := permitted_read_ready hc hpoll hsync hperm hd
    obtain ⟨-, e, he, hbody, -⟩ := readRawBody_chip hdir hn hd hp hds hh hr hcnt
    obtain ⟨d', hd', hsd'⟩ := turn_chipIs newConversion_synced ⟨_, he, hds⟩ false
    exact ⟨d', hbody.trans hd', hsd'⟩
  | powerDown =>
    obtain ⟨hs, rfl⟩ := h
    obtain ⟨hdir, -⟩ := clock_configured hb hs
    exact chipIs_mono (fun _ hd => hd.2) (powerDownBody_chipIs hdir (hsynced hs))
  | powerUp =>
    obtain ⟨hs, rfl⟩ := h
    obtain ⟨hdir, hlow | hhigh⟩ := clock_configured hb hs
    · have hkept : ∀ tag p (d : Chip), d.Rests low ∧ d.desync = false →
          (d.newConversion tag p).Rests low ∧ (d.newConversion tag p).desync = false :=
        fun tag p d ⟨hrest, hd⟩ => ⟨newConversion_rests tag p d hrest, newConversion_synced tag p d hd⟩
      exact chipIs_mono (fun _ hd => hd.2) (powerUpBody_low hkept (fun _ hd => (rests_low.mp hd.1).2.1) hdir
        ⟨c, hc0, hlow ▸ hc c hc0 hs, hsync c hc0 hs⟩)
    · exact chipIs_mono (fun _ hd => hd.2.2.1) (powerUpBody_wakes hdir (hhigh ▸ hrests hs))

/-- Settles O45: the commands by R223 and R230, the wait as a turn of the chip. -/
theorem contractKeepsSynchronised : Obligations.ContractKeepsSynchronised := by
  intro s hb hc hpoll hsync
  refine ⟨fun i t hperm h => ⟨exec_keeps_pollTells hc hpoll h, fun c hct hdone => ?_⟩, fun t hcmd h => ?_⟩
  · refine chipIs_apply (exec_chip_synced hb hc hpoll hsync hperm h hdone ?_) hct
    rw [← exec_isSome h, hct]
    rfl
  · obtain ⟨-, rfl⟩ | ⟨w, rest, i, hw, -⟩ := (step_idle_next hb.1).mp h
    · exact ⟨fun c hct hdone hlow _ => (turn_keeps_pollTells hpoll hsync hdone hct).2 hlow,
        fun c hct hdone => (turn_keeps_pollTells hpoll hsync hdone hct).1⟩
    · simp [hcmd] at hw

/-! ## What a read returns -/

/-- Settles O47: a permitted read starts in step. -/
theorem contractReadReturnsConversion : Obligations.ContractReadReturnsConversion := by
  intro s c hb hc hpoll hsync hperm h
  obtain ⟨hp, hh, hd, hr, hcnt⟩ := permitted_read_ready hc hpoll hsync hperm h
  simp only [permitted, Bool.and_eq_true, decide_eq_true_eq] at hperm
  obtain ⟨⟨hdone, hlow⟩, -⟩ := hperm
  obtain ⟨hdir, -⟩ := clock_configured hb hdone
  obtain ⟨hidle, hn, -⟩ := hb
  exact ⟨s.readRawBody, exec_next.mpr ⟨hidle, hdone, hlow, hn, rfl⟩, (readRawBody_chip hdir hn h hp hd hh hr hcnt).1⟩

/-- Every selection has a gain number, and it stands for its pulse count (R95, R100). -/
theorem pulseCountOf_gainOf (sel : Selection) : pulseCountOf (gainOf sel) = some (pulsesOf sel) := by
  cases sel <;> rfl

theorem pulsesOf_ne_zero (sel : Selection) : pulsesOf sel ≠ 0#2 := pulseCountOf_ne_zero (pulseCountOf_gainOf sel)

/-- A conversion that follows a whole frame is made under the selection the frame latched (R75, R127). -/
theorem newConversion_after_frame {d : Chip} {sel : Selection} (hp : d.power = .on) (hh : d.highFor = none)
    (hd : d.desync = false) (hcnt : d.cnt = 24 + (pulsesOf sel).toNat) (tag : Selection) (p : Pattern) :
    d.newConversion tag p = { d with sel := sel, dataSel := sel, data := p, cnt := 0, ready := true, dout := low } := by
  have hframe : d.cnt ∈ [0, 25, 26, 27] := by
    rw [hcnt]
    cases sel <;> decide
  rw [newConversion_enabled hp hh hd hframe, latched_of_frame hcnt]

/-- Settles O48: the read is in step, so its pulses are a whole frame of the new selection. -/
theorem selectionLagsByOneRead : Obligations.SelectionLagsByOneRead := by
  intro s c sel hidle hdone hlow hdir h hp hd hh hr hcnt
  let t : State := { s with pulseCount := pulsesOf sel }
  have hn : t.pulseCount ≠ 0#2 := pulsesOf_ne_zero sel
  obtain ⟨hresult, e, he, hbody, hsched⟩ := readRawBody_chip (s := t) hdir hn h hp hd hh hr hcnt
  refine ⟨t, t.readRawBody, e, _, exec_next.mpr ⟨hidle, _, pulseCountOf_gainOf sel, rfl⟩,
    exec_next.mpr ⟨hidle, hdone, hlow, hn, rfl⟩, hresult, he, hsched, hbody, rfl, rfl, rfl, rfl, hd, fun tag p => ?_⟩
  rw [newConversion_after_frame (d := { c with cnt := 24 + t.pulseCount.toNat, ready := false, dout := high })
    (sel := sel) hp hh hd rfl]
  exact ⟨rfl, rfl, rfl, rfl, rfl⟩

/-- After `SETUP` an idle block always completes `POWER_DOWN` and `POWER_UP` (R170, R174). -/
theorem exec_powerDown {s : State} (hidle : s.seq = .idle) (hdone : s.setupDone = true) : exec .powerDown s =
    .next (((s.accept .powerDown).memWrite high).delay Config.tPdHoldMin).endPowerDown :=
  exec_next.mpr ⟨hidle, hdone, rfl⟩

theorem exec_powerUp {s : State} (hidle : s.seq = .idle) (hdone : s.setupDone = true) : exec .powerUp s =
    .next ((s.accept .powerUp).memWrite low).endPowerUp :=
  exec_next.mpr ⟨hidle, hdone, rfl⟩

/-- A power cycle wakes and resets every chip (R178, R236). -/
theorem powerCycle_chipIs {s : State} (hidle : s.seq = .idle) (hdone : s.setupDone = true) (hdir : s.sckDir = .output)
    (h : s.env.chip.isSome) : ∃ u, execAll powerCycle s = .next u ∧ u.env.ChipIs Chip.Woken := by
  obtain ⟨c, hc⟩ := Option.isSome_iff_exists.mp h
  obtain ⟨d, hd, hrests, -⟩ := powerDownBody_chipIs (b := c.desync) hdir ⟨c, hc, rfl⟩
  have hdown := exec_powerDown hidle hdone
  obtain ⟨-, -, -, hseq, -, hframe, -⟩ := frameOfEveryCommand _ _ _ hdown
  obtain ⟨hdir', -, hdone'⟩ := hframe nofun
  have hup := exec_powerUp (hseq.trans hidle) (hdone'.trans hdone)
  exact ⟨_, execAll_cons_next.mpr ⟨_, hdown, execAll_cons_next.mpr ⟨_, hup, rfl⟩⟩,
    powerUpBody_wakes (hdir'.trans hdir) ⟨d, hd, hrests⟩⟩

/-- Settles O49: the read leaves the chip adrift, and the power cycle wakes it. -/
theorem notReadyReadNeedsPowerCycle : Obligations.NotReadyReadNeedsPowerCycle := by
  intro s c hidle hdone hlow hdir hn h hp hh hr
  have hread : exec .readRaw s = .next s.readRawBody := exec_next.mpr ⟨hidle, hdone, hlow, hn, rfl⟩
  obtain ⟨d, hd, -, hdesync, -⟩ := readRawBody_adrift hdir ⟨c, h, hp, hh, .inr ⟨rfl, hr⟩⟩
  obtain ⟨-, -, -, hseq, -, hframe, -⟩ := frameOfEveryCommand _ _ _ hread
  obtain ⟨hdir', -, hdone'⟩ := hframe nofun
  obtain ⟨u, hu, d', hd', -, -, hsynced, hsel, -⟩ := powerCycle_chipIs (hseq.trans hidle) (hdone'.trans hdone)
    (hdir'.trans hdir) (by rw [hd]; rfl)
  exact ⟨s.readRawBody, u, d, d', hread, hd, hdesync, hu, hd', hsynced, hsel⟩

end Sys2Proof.Machine
end

section
/-!
What the block samples (spec/20_memory.md R57; spec/41_acquisition.md R140, R144): the answer of one poll, by environment, and the
bits of `ACC` after the bit cycles of a read.
-/

namespace Sys2Proof.Machine

open Sys2Proof

/-- The answer of `IS_READY` is 1 exactly when the level is low (R140). -/
theorem readyAnswer_eq (b : Level) : readyAnswer b = if b = low then 1#32 else 0#32 := by
  revert b
  decide

/-- The level a poll samples and the environment it leaves: the sample of the environment after its turn (R57). -/
theorem exec_isReady {s : State} (hidle : s.seq = .idle) (hdone : s.setupDone = true) : exec .isReady s = .next { s with
    result := readyAnswer (s.env.turn false).sample.1
    trace := s.trace ++ [.rd s.dataPin (s.env.turn false).sample.1]
    responses := s.responses ++ [readyAnswer (s.env.turn false).sample.1]
    env := (s.env.turn false).sample.2 } := by
  refine exec_next.mpr ⟨hidle, hdone, ?_⟩
  rw [isReadyBody_eq, ← hidle]
  rfl

/-- A chip whose answer is fixed gives it, and nothing of the environment moves (R55, R72). -/
theorem sample_definite {e : Env} {c : Chip} (h : e.chip = some c) (hd : c.definite = true) : e.sample = (c.dout, e) := by
  simp [Env.sample, h, hd]

/-- A chip asleep or in `DESYNC` leaves the answer to the oracle (R77, R81). -/
theorem sample_indefinite {e : Env} {c : Chip} (h : e.chip = some c) (hd : c.power = .asleep ∨ c.desync = true) :
    e.sample = e.draw := by
  have hfree : c.definite = false := by
    obtain hd | hd := hd <;> simp [Chip.definite, hd]
  simp [Env.sample, h, hfree]

/-- The oracle's next answer, where one is given (R57). -/
theorem draw_cons {e : Env} {b : Level} {rest : List Level} (h : e.answers = b :: rest) :
    e.draw = (b, { e with answers := rest }) := by
  simp [Env.draw, h]

/-- The chip's turn draws no answer of the oracle (R57, R66). -/
theorem turn_answers (e : Env) (mid : Bool) : (e.turn mid).answers = e.answers := by
  have hconvert : ∀ (ps : List Pattern) (e : Env), (Env.convertAll ps e).answers = e.answers := by
    intro ps
    induction ps with
    | nil => exact fun _ => rfl
    | cons p ps ih =>
      intro e
      rw [Env.convertAll, ih]
      unfold Env.convert
      split <;> rfl
  unfold Env.turn
  split
  · split
    · rfl
    · rw [hconvert]
  · rfl

/-- Settles O22: the sample is that of the environment after its turn, case by case. -/
theorem isReadyResult : Obligations.IsReadyResult := by
  intro s hidle hdone
  refine ⟨_, _, by rw [exec_isReady hidle hdone, readyAnswer_eq], fun hfree a rest ha => ?_, fun c hc hp hd hh => ?_,
    fun c hc hfree a rest ha => ?_⟩
  · rw [turn_oracle hfree, sample_oracle hfree, draw_cons ha]
    exact ⟨rfl, rfl⟩
  · rw [sample_definite hc (by simp [Chip.definite, hp, hd, hh])]
    exact ⟨rfl, rfl⟩
  · rw [sample_indefinite hc hfree, draw_cons ((turn_answers _ _).trans ha)]
    exact ⟨rfl, rfl⟩

/-- One shift into `ACC`: bit 0 is the sample, and every other bit is the one below it (R144). -/
theorem shiftIn_getLsbD_zero (acc : Pattern) (b : Level) : (shiftIn acc b).getLsbD 0 = b.getLsbD 0 :=
  BitVec.getLsbD_append

theorem shiftIn_getLsbD_succ (acc : Pattern) (b : Level) {j : Nat} (hj : j + 1 < 24) :
    (shiftIn acc b).getLsbD (j + 1) = acc.getLsbD j := by
  have hj : j < 23 := by omega
  exact BitVec.getLsbD_append.trans (by simp [hj])

/-- After up to 24 shifts the samples stand in `ACC`, the first one highest (R144). -/
theorem foldl_shiftIn_getLsbD (bs : List Level) (acc : Pattern) (hlen : bs.length ≤ 24) (i : Nat) (hi : i < bs.length) :
    (bs.foldl shiftIn acc).getLsbD (bs.length - 1 - i) = bs[i].getLsbD 0 := by
  induction bs using List.reverseRecOn with
  | nil => exact absurd hi (Nat.not_lt_zero i)
  | append_singleton bs b ih =>
    rw [List.length_append, List.length_singleton] at hlen hi
    rw [List.foldl_append, List.foldl_cons, List.foldl_nil]
    by_cases hlast : i = bs.length
    · subst hlast
      have hbit : (bs ++ [b]).length - 1 - bs.length = 0 := by simp
      rw [hbit, shiftIn_getLsbD_zero, List.getElem_concat_length rfl]
    · have hi : i < bs.length := by omega
      have hbit : (bs ++ [b]).length - 1 - i = bs.length - 1 - i + 1 := by
        rw [List.length_append, List.length_singleton]
        omega
      rw [hbit, shiftIn_getLsbD_succ _ _ (by omega), ih (by omega) hi, List.getElem_append_left hi]

/-- Settles O25. -/
theorem bitCyclesFillAccumulator : Obligations.BitCyclesFillAccumulator := by
  intro s n hn
  obtain ⟨bs, e, hlen, hcycles, -⟩ := bitCycles_spec n s
  refine ⟨bs, hlen, by rw [hcycles], fun i hi => ?_⟩
  rw [hcycles, ← hlen]
  exact foldl_shiftIn_getLsbD bs s.acc (hlen ▸ hn) i hi

end Sys2Proof.Machine
end

section
/-!
Several blocks (spec/00_scope.md R63; spec/60_exceptions.md R202): no step changes the pins of a block, so blocks that have their own
pins keep them.
-/

namespace Sys2Proof.Machine

open Sys2Proof

/-- The end of a command leaves the pins (R21). -/
theorem lastRow_pins {c : Instr} {s t : State} (h : s.lastRow c = .next t) :
    t.clockPin = s.clockPin ∧ t.dataPin = s.dataPin := by
  have h := lastRow_next.mp h
  cases c with
  | setGain sel =>
    obtain ⟨n, -, rfl⟩ := h
    exact ⟨rfl, rfl⟩
  | readRaw =>
    obtain ⟨-, rfl⟩ := h
    exact ⟨rfl, rfl⟩
  | _ =>
    subst h
    exact ⟨rfl, rfl⟩

/-- Every step leaves the pins (R21). -/
theorem step_pins {s t : State} (h : step s = .next t) : t.clockPin = s.clockPin ∧ t.dataPin = s.dataPin := by
  cases hq : s.seq with
  | idle =>
    obtain ⟨-, rfl⟩ | ⟨w, rest, i, -, -, h⟩ := (step_idle_next hq).mp h
    · exact ⟨rfl, rfl⟩
    · obtain ⟨hclock, hdata, -⟩ := frameOfEveryCommand _ _ _ h
      exact ⟨hclock, hdata⟩
  | run c k =>
    by_cases hk : k < eventCount c s.pulseCount
    · rw [step_run_row hq hk] at h
      cases h
      exact ⟨(emitsOne_row hk).clockPin, (emitsOne_row hk).dataPin⟩
    · rw [step_run_last hq (Nat.not_lt.mp hk)] at h
      exact lastRow_pins h

/-- A block replaced by one with its pins leaves the list of pins. -/
theorem pinsOf_set {ms : List State} {n : Nat} {s t : State} (hs : ms[n]? = some s) (hclock : t.clockPin = s.clockPin)
    (hdata : t.dataPin = s.dataPin) : pinsOf (ms.set n t) = pinsOf ms := by
  induction ms generalizing n with
  | nil => rfl
  | cons m ms ih =>
    cases n with
    | zero =>
      cases hs
      simp [pinsOf, hclock, hdata]
    | succ n => simp [pinsOf, ih hs]

/-- Settles O53. -/
theorem blocksAreIndependent : Obligations.BlocksAreIndependent := by
  intro n ms
  refine ⟨fun hshared => by simp [stepOne, hshared], fun s t hown hs ht => stepOne_next.mpr ⟨hown, s, t, hs, ht, rfl⟩,
    fun ts h => ?_⟩
  obtain ⟨hown, s, t, hs, ht, rfl⟩ := stepOne_next.mp h
  obtain ⟨hn, -⟩ := List.getElem?_eq_some_iff.mp hs
  obtain ⟨hclock, hdata⟩ := step_pins ht
  have hpins := pinsOf_set hs hclock hdata
  exact ⟨hown, fun m hm => List.getElem?_set_ne hm.symm, ⟨s, t, hs, List.getElem?_set_self hn, ht⟩, hpins,
    by rw [ownPins, hpins]; exact hown⟩

end Sys2Proof.Machine
end

section
/-!
Command words (spec/30_encoding.md R91, R94, R96, R98): a word is its three fields, which words the decoder accepts and rejects,
and that it is inverse to the encoder.
-/

namespace Sys2Proof

open Sys2Proof.Laws

/-- A command word is nothing but its three fields (R91). -/
theorem word_eq_of_fields {v w : CommandWord} (hop : opField v = opField w) (hrsv : rsvField v = rsvField w)
    (himm : imm8Field v = imm8Field w) : v = w := by
  have hop := congrArg BitVec.toNat hop
  have hrsv := congrArg BitVec.toNat hrsv
  have himm := congrArg BitVec.toNat himm
  simp only [opField, rsvField, imm8Field, BitVec.extractLsb'_toNat, Nat.shiftRight_eq_div_pow] at hop hrsv himm
  apply BitVec.eq_of_toNat_eq
  omega

/-- Which words decode, and to what (R98): the one inversion lemma for `decode`. -/
theorem decode_eq_ok {w : CommandWord} {i : Instr} : decode w = .ok i ↔ rsvField w = 0#4 ∧
    ((opField w = 2#4 ∧ i = .setGain (imm8Field w).toNat) ∨
      (opField w ≠ 2#4 ∧ imm8Field w = 0#8 ∧ commandOfOp (opField w) = some i)) := by
  unfold decode
  by_cases hrsv : rsvField w = 0#4
  · by_cases hop : opField w = 2#4
    · simp [hrsv, hop, @eq_comm _ i]
    · by_cases himm : imm8Field w = 0#8
      · cases hc : commandOfOp (opField w) <;> simp [hrsv, hop, himm]
      · simp [hrsv, hop, himm]
  · simp [hrsv]

/-- The operation codes that name no command without operand (R94). -/
theorem commandOfOp_eq_none {op : BitVec 4} : commandOfOp op = none ↔ op = 0#4 ∨ op = 2#4 ∨ 7 ≤ op.toNat := by
  revert op
  decide

/-- The illegal words (R96) are those the decoder rejects. -/
theorem decode_error_iff {w : CommandWord} : (∃ r, decode w = .error r) ↔
    opField w = 0#4 ∨ 7 ≤ (opField w).toNat ∨ rsvField w ≠ 0#4 ∨ (opField w ≠ 2#4 ∧ imm8Field w ≠ 0#8) := by
  by_cases hrsv : rsvField w = 0#4
  · by_cases hop : opField w = 2#4
    · simp [decode, hrsv, hop]
    · by_cases himm : imm8Field w = 0#8
      · have hnone := commandOfOp_eq_none (op := opField w)
        cases hc : commandOfOp (opField w) <;> simp_all [decode]
      · simp [decode, hrsv, hop, himm]
  · simp [decode, hrsv]

/-- A command without operand has the word of its operation code, its other bits 0 (R94). -/
theorem commandOfOp_word {op : BitVec 4} {i : Instr} (h : commandOfOp op = some i) : i.wellFormed = true ∧
    opField (encode i) = op ∧ rsvField (encode i) = 0#4 ∧ imm8Field (encode i) = 0#8 := by
  unfold commandOfOp at h
  split at h <;> cases h <;> decide

/-- The word of `SET_GAIN` carries the selection in `imm8` (R94, R95). -/
theorem imm8Field_encode_setGain {sel : Nat} (h : sel < 256) : (imm8Field (encode (.setGain sel))).toNat = sel := by
  simp [encode, imm8Field]
  omega

/-- Decode after encode is the identity on the well-formed commands (R98). -/
theorem decode_encode {i : Instr} (h : i.wellFormed = true) : decode (encode i) = .ok i := by
  cases i with
  | setGain sel =>
    obtain ⟨hrsv, hop⟩ := CodeWord.setGain sel h
    refine decode_eq_ok.mpr ⟨hrsv, .inl ⟨hop, ?_⟩⟩
    rw [imm8Field_encode_setGain (of_decide_eq_true h)]
  | _ => rfl

/-- Encode after decode is the identity on the legal words (R98): the encoded command has the word's fields. -/
theorem encode_of_decode {w : CommandWord} {i : Instr} (h : decode w = .ok i) : i.wellFormed = true ∧ encode i = w := by
  obtain ⟨hrsv, ⟨hop, rfl⟩ | ⟨-, himm, hi⟩⟩ := decode_eq_ok.mp h
  · have hsel := (imm8Field w).isLt
    have hwf : (Instr.setGain (imm8Field w).toNat).wellFormed = true := decide_eq_true hsel
    obtain ⟨hrsv', hop'⟩ := CodeWord.setGain _ hwf
    exact ⟨hwf, word_eq_of_fields (hop'.trans hop.symm) (hrsv'.trans hrsv.symm)
      (BitVec.eq_of_toNat_eq (imm8Field_encode_setGain hsel))⟩
  · obtain ⟨hwf, hop', hrsv', himm'⟩ := commandOfOp_word hi
    exact ⟨hwf, word_eq_of_fields hop' (hrsv'.trans hrsv.symm) (himm'.trans himm.symm)⟩

/-- A word whose reserved bits and `imm8` are 0 decodes to the command its operation code names (R94, R98). -/
theorem decode_commandOfOp {w : CommandWord} {op : BitVec 4} {i : Instr} (hrsv : rsvField w = 0#4)
    (himm : imm8Field w = 0#8) (hi : commandOfOp op = some i) (hop : opField w = op) : decode w = .ok i := by
  subst hop
  have hop : opField w ≠ 2#4 := fun hop => by simp [commandOfOp_eq_none.mpr (.inr (.inl hop))] at hi
  exact decode_eq_ok.mpr ⟨hrsv, .inr ⟨hop, himm, hi⟩⟩

/-- Settles O2: the decoder field by field, and that it and the encoder are inverse to each other. -/
theorem decodeAndEncodeAgree : Obligations.DecodeAndEncodeAgree := by
  have hrange : ∀ op : BitVec 4, op ∉ [1#4, 2#4, 3#4, 4#4, 5#4, 6#4] → op = 0#4 ∨ 7 ≤ op.toNat := by decide
  refine ⟨fun w hrsv => decode_error_iff.mpr (.inr (.inr (.inl hrsv))),
    fun w hrsv hop => decode_eq_ok.mpr ⟨hrsv, .inl ⟨hop, rfl⟩⟩,
    fun w _ hop himm => decode_error_iff.mpr (.inr (.inr (.inr ⟨hop, himm⟩))),
    fun w hrsv himm => ⟨decode_commandOfOp hrsv himm rfl, decode_commandOfOp hrsv himm rfl,
      decode_commandOfOp hrsv himm rfl, decode_commandOfOp hrsv himm rfl, decode_commandOfOp hrsv himm rfl,
      fun hop => decode_error_iff.mpr ((hrange _ hop).imp_right .inl)⟩,
    fun i => decode_encode, fun w i => encode_of_decode⟩

/-- Settles O1: the eight words are the encoder's. -/
theorem commandWordsDecode : Obligations.CommandWordsDecode :=
  ⟨decode_encode (i := .setup) rfl, decode_encode (i := .setGain 128) rfl, decode_encode (i := .setGain 32) rfl,
    decode_encode (i := .setGain 64) rfl, decode_encode (i := .isReady) rfl, decode_encode (i := .readRaw) rfl,
    decode_encode (i := .powerDown) rfl, decode_encode (i := .powerUp) rfl⟩

end Sys2Proof
end

section
/-!
The command face (spec/30_encoding.md R92, R96; spec/60_exceptions.md R195, R204, R225): what an idle block makes of the word it
is offered, which commands complete, and that a busy block accepts none.
-/

namespace Sys2Proof.Machine

open Sys2Proof

/-! ## The reasons of a refusal (R195) -/

/-- A check that refuses does so with its own reason, or passes on the refusal of what it guards. -/
theorem whenIdle_refused {s : State} {k : Result} {r : Refusal} (h : whenIdle s k = .refused r) :
    r = .notAccepted ∨ k = .refused r := by
  unfold whenIdle at h; split at h <;> simp_all

theorem whenSetUp_refused {s : State} {k : Result} {r : Refusal} (h : whenSetUp s k = .refused r) :
    r = .notSetUp ∨ k = .refused r := by
  unfold whenSetUp at h; split at h <;> simp_all

theorem whenNotSetUp_refused {s : State} {k : Result} {r : Refusal} (h : whenNotSetUp s k = .refused r) :
    r = .setupRepeated ∨ k = .refused r := by
  unfold whenNotSetUp at h; split at h <;> simp_all

theorem whenClockLow_refused {s : State} {k : Result} {r : Refusal} (h : whenClockLow s k = .refused r) :
    r = .clockNotLow ∨ k = .refused r := by
  unfold whenClockLow at h; split at h <;> simp_all

theorem whenCounted_refused {s : State} {k : Result} {r : Refusal} (h : whenCounted s k = .refused r) :
    k = .refused r := by
  unfold whenCounted at h; split at h <;> simp_all

/-- The refusals a command can end in (R195); an illegal word's is none of them. -/
theorem exec_refused {i : Instr} {s : State} {r : Refusal} (h : exec i s = .refused r) :
    r ∈ [Refusal.notAccepted, .notSetUp, .setupRepeated, .clockNotLow] := by
  cases i with
  | setup =>
    obtain rfl | h := whenIdle_refused h
    · decide
    obtain rfl | h := whenNotSetUp_refused h
    · decide
    cases h
  | setGain sel =>
    obtain rfl | h := whenIdle_refused h
    · decide
    unfold State.endSetGain at h
    split at h <;> cases h
  | readRaw =>
    obtain rfl | h := whenIdle_refused h
    · decide
    obtain rfl | h := whenSetUp_refused h
    · decide
    obtain rfl | h := whenClockLow_refused h
    · decide
    cases whenCounted_refused h
  | _ =>
    obtain rfl | h := whenIdle_refused h
    · decide
    obtain rfl | h := whenSetUp_refused h
    · decide
    cases h

/-! ## An idle block -/

/-- An idle block takes the caller's next word (R92). -/
theorem step_idle_word {s : State} {w : CommandWord} {rest : List CommandWord} (hidle : s.seq = .idle)
    (hwords : s.commands = w :: rest) : step s = offer w { s with commands := rest } := by
  simp [step, hidle, State.idleStep, hwords]

/-- A legal word is carried out (R204). -/
theorem offer_ok {w : CommandWord} {i : Instr} (h : decode w = .ok i) (s : State) : offer w s = exec i s := by
  simp [offer, h]

/-- Exactly the words that spell no command are refused as illegal (R96). -/
theorem offer_illegalCommand {w : CommandWord} {s : State} :
    offer w s = .refused .illegalCommand ↔ ∃ r, decode w = .error r := by
  unfold offer
  cases hd : decode w with
  | error r => simp
  | ok i =>
    have hexec : exec i s ≠ .refused .illegalCommand := fun h => absurd (exec_refused h) (by decide)
    simp [hexec]

/-- Settles O3. -/
theorem illegalWordsRefused : Obligations.IllegalWordsRefused := by
  intro s w rest hidle hwords
  rw [step_idle_word hidle hwords, offer_illegalCommand, decode_error_iff]

/-- Settles O4. -/
theorem stepRunsDecodedCommand : Obligations.StepRunsDecodedCommand := by
  intro s w rest i hidle hwords hd
  rw [step_idle_word hidle hwords, offer_ok hd]

/-- A word numbered as the opcode table numbers it decodes as the command word it stands for (R91). -/
theorem decodeTableWord_eq_some {nbits w : Nat} {i : Instr} :
    decodeTableWord nbits w = some i ↔ decode (tableWord nbits w) = .ok i := by
  unfold decodeTableWord
  cases decode (tableWord nbits w) <;> simp

/-- Settles O5: placing a word makes the block idle and the word the caller's next. -/
theorem placedWordRuns : Obligations.PlacedWordRuns := by
  intro s w i hd
  exact stepRunsDecodedCommand (s.withFetchWord 16 w) _ _ i rfl rfl (decodeTableWord_eq_some.mp hd)

/-- Settles O6: waiting is the chip's turn and nothing else, and the free oracle takes none. -/
theorem idleBlockWaits : Obligations.IdleBlockWaits := by
  intro s hidle hnone
  exact ⟨s.env.turn s.midFrame, (step_idle_next hidle).mpr (.inl ⟨hnone, rfl⟩), fun hfree => turn_oracle hfree _⟩

/-! ## A busy block -/

theorem whenIdle_stop {s : State} {k : Result} (h : s.seq ≠ .idle) : whenIdle s k = .refused .notAccepted := if_neg h

/-- A command offered to a busy block is refused before anything else is looked at (R92, R195). -/
theorem exec_busy {s : State} (h : s.seq ≠ .idle) (i : Instr) : exec i s = .refused .notAccepted := by
  cases i <;> exact whenIdle_stop h

/-- No row of a command touches the caller's words (R92). -/
theorem row_commands (c : Instr) (k : Nat) (s : State) : (s.row c k).commands = s.commands := by
  cases c with
  | setup => simp only [State.row, State.setupRow]; split <;> simp
  | readRaw => simp only [State.row, State.readRow]; split <;> split <;> simp
  | powerDown => simp only [State.row, State.powerDownRow]; split <;> simp
  | _ => rfl

/-- Nor does the end of a command. -/
theorem lastRow_commands {c : Instr} {s t : State} (h : s.lastRow c = .next t) : t.commands = s.commands := by
  have h := lastRow_next.mp h
  cases c with
  | setGain sel =>
    obtain ⟨n, -, rfl⟩ := h
    rfl
  | readRaw =>
    obtain ⟨-, rfl⟩ := h
    rfl
  | _ =>
    subst h
    rfl

/-- Settles O7. -/
theorem busyBlockAcceptsNothing : Obligations.BusyBlockAcceptsNothing := by
  intro s c k hq
  have hbusy : s.seq ≠ .idle := by simp [hq]
  refine ⟨decide_eq_false hbusy, exec_busy hbusy, fun t ht => ?_⟩
  by_cases hk : k < eventCount c s.pulseCount
  · rw [step_run_row hq hk] at ht
    cases ht
    exact row_commands c k s
  · rw [step_run_last hq (Nat.not_lt.mp hk)] at ht
    exact lastRow_commands ht

/-! ## Completion -/

/-- The three gain numbers are those that name a selection (R95, R100, R128). -/
theorem exists_pulseCountOf {sel : Nat} : (∃ n, pulseCountOf sel = some n) ↔ sel = 128 ∨ sel = 32 ∨ sel = 64 := by
  unfold pulseCountOf selectionOf
  split_ifs <;> simp_all

/-- Settles O37: the conditions are those of the inversion lemma for `exec`. -/
theorem commandCompletesExactlyWhen : Obligations.CommandCompletesExactlyWhen := by
  intro i s
  cases i with
  | setGain sel => simp [exec_next, ← exists_pulseCountOf]
  | _ => simp [exec_next]

end Sys2Proof.Machine
end

section
/-!
The pseudo-command `SAMPLE` (spec/30_encoding.md R106): the reading that 24 samples spell (spec/41_acquisition.md R148, R151), a read
before the free oracle, and the poll loop.
-/

namespace Sys2Proof.Machine

open Sys2Proof

/-! ## The reading (R148, R151) -/

/-- Widening keeps the value of the pattern (R148). -/
theorem widen_toInt (acc : Pattern) : (widen acc).toInt = acc.toInt := by
  have hlt := acc.isLt
  have happend : (acc ++ 0#8).toNat = acc.toNat * 2 ^ 8 := by
    rw [BitVec.toNat_append, ← Nat.shiftLeft_add_eq_or_of_lt (by decide), Nat.shiftLeft_eq]
    simp
  rw [widen, BitVec.toInt_sshiftRight, Int.shiftRight_eq_div_pow, BitVec.toInt_eq_toNat_cond, happend,
    BitVec.toInt_eq_toNat_cond]
  split_ifs <;> omega

/-- The first sample is the sign: it is 1 exactly when the pattern's value has reached half the range (R151). -/
theorem head_high_iff {bs : List Level} (h : bs.length = 24) : bs.head? = some high ↔ 2 ^ 23 ≤ patternValue bs := by
  obtain ⟨b, rest, rfl⟩ := List.exists_cons_of_length_eq_add_one h
  have hrest : rest.length = 23 := by simpa using h
  have hlt := patternValue_lt rest
  by_cases hb : b = high
  · simp [hb, patternValue, hrest]
  · simpa [eq_low_of_ne_high hb, patternValue, hrest] using hlt

/-- What 24 samples leave in `ACC`, widened, is their reading (R148, R151). -/
theorem widen_samples_toInt {bs : List Level} (h : bs.length = 24) (acc : Pattern) :
    (widen (bs.foldl shiftIn acc)).toInt = readingOf bs := by
  have hlt := patternValue_lt bs
  rw [h] at hlt
  rw [widen_toInt, foldl_shiftIn_eq h, BitVec.toInt_eq_toNat_cond, BitVec.toNat_ofNat, Nat.mod_eq_of_lt hlt]
  simp only [readingOf, head_high_iff h, Config.dataBits]
  split_ifs <;> omega

/-! ## A read before the free oracle (R57(a), R152) -/

/-- A read that is allowed takes the oracle's next 24 answers and responds with their reading. -/
theorem exec_readRaw_oracle {s : State} {bs rest : List Level} (hidle : s.seq = .idle) (hdone : s.setupDone = true)
    (hlow : s.sck = low) (hcount : s.pulseCount ≠ 0#2) (hfree : s.env.chip = none) (hlen : bs.length = 24)
    (ha : s.env.answers = bs ++ rest) : ∃ t, exec .readRaw s = .next t ∧ t.result.toInt = readingOf bs ∧
      t.responses = s.responses ++ [t.result] ∧ t.env.answers = rest := by
  obtain ⟨bs', e, -, hbody, hdraw⟩ := readRawBody_spec s
  have hdraw := hdraw hfree
  rw [← hlen, drawN_answers bs rest s.env ha] at hdraw
  obtain ⟨rfl, rfl⟩ := Prod.mk.inj hdraw
  refine ⟨s.readRawBody, exec_next.mpr ⟨hidle, hdone, hlow, hcount, rfl⟩, ?_⟩
  rw [hbody]
  exact ⟨widen_samples_toInt hlen _, rfl, rfl⟩

/-! ## The poll loop -/

/-- A block after one poll that the free oracle answered `b` (R140); the answers left are `rest`. -/
def State.polledOnce (b : Level) (rest : List Level) (s : State) : State :=
  { s with
    result := readyAnswer b
    trace := s.trace ++ [.rd s.dataPin b]
    responses := s.responses ++ [readyAnswer b]
    env := { s.env with answers := rest } }

/-- A block after `k` polls the free oracle answered high and one it answered low (R106); the answers left are `rest`. -/
def State.polled (k : Nat) (rest : List Level) (s : State) : State :=
  { s with
    result := 1#32
    trace := s.trace ++ List.replicate k (.rd s.dataPin high) ++ [.rd s.dataPin low]
    responses := s.responses ++ List.replicate k 0#32 ++ [1#32]
    env := { s.env with answers := rest } }

theorem polledOnce_low (rest : List Level) (s : State) : s.polledOnce low rest = s.polled 0 rest := by
  simp [State.polledOnce, State.polled, readyAnswer_eq]

theorem polled_polledOnce_high (k : Nat) (rest rest' : List Level) (s : State) :
    (s.polledOnce high rest').polled k rest = s.polled (k + 1) rest := by
  simp [State.polledOnce, State.polled, readyAnswer_eq, List.replicate_succ]

/-- One poll under the free oracle takes its next answer (R57(a), R140). -/
theorem exec_isReady_oracle {s : State} {b : Level} {rest : List Level} (hidle : s.seq = .idle)
    (hdone : s.setupDone = true) (hfree : s.env.chip = none) (ha : s.env.answers = b :: rest) :
    exec .isReady s = .next (s.polledOnce b rest) := by
  rw [exec_isReady hidle hdone, turn_oracle hfree, sample_oracle hfree, draw_cons ha]
  rfl

/-- One turn of the poll loop: an answer low ends it, an answer high leaves one poll less (R106). -/
theorem waitReady_succ_oracle {b : Level} {polls : Nat} {s : State} {rest : List Level} (hidle : s.seq = .idle)
    (hdone : s.setupDone = true) (hfree : s.env.chip = none) (ha : s.env.answers = b :: rest) :
    waitReady (polls + 1) s =
      if b = low then some (.next (s.polledOnce b rest)) else waitReady polls (s.polledOnce b rest) := by
  have hresult : (s.polledOnce b rest).result = 1#32 ↔ b = low := by
    simp [State.polledOnce, readyAnswer_eq]
  simp only [waitReady, exec_isReady_oracle hidle hdone hfree ha, hresult]

/-- The poll loop ends with the first answer low, when enough polls are allowed (R106): by induction on the polls. -/
theorem waitReady_oracle {k polls : Nat} {s : State} {rest : List Level} (hidle : s.seq = .idle)
    (hdone : s.setupDone = true) (hfree : s.env.chip = none) (hk : k < polls)
    (ha : s.env.answers = List.replicate k high ++ low :: rest) :
    waitReady polls s = some (.next (s.polled k rest)) := by
  induction polls generalizing k s with
  | zero => exact absurd hk (Nat.not_lt_zero k)
  | succ polls ih =>
    cases k with
    | zero => rw [waitReady_succ_oracle hidle hdone hfree ha, if_pos rfl, polledOnce_low]
    | succ k =>
      rw [waitReady_succ_oracle hidle hdone hfree ha, if_neg (by decide), ← polled_polledOnce_high]
      exact ih (s := s.polledOnce high _) hidle hdone hfree (Nat.lt_of_succ_lt_succ hk) rfl

/-- Settles O52: the poll loop ends with the answer 1, and the read takes the 24 answers after it. -/
theorem sampleWaitsThenReads : Obligations.SampleWaitsThenReads := by
  intro s k polls bs rest hidle hdone hlow hcount hfree hlen hk ha
  obtain ⟨t, hread, hresult, hresponses, hanswers⟩ :=
    exec_readRaw_oracle (s := s.polled k (bs ++ rest)) hidle hdone hlow hcount hfree hlen rfl
  refine ⟨t, ?_, hresult, ?_, hanswers⟩
  · rw [sampleOnce, waitReady_oracle hidle hdone hfree hk ha]
    exact congrArg some hread
  · simp [hresponses, State.polled]

end Sys2Proof.Machine
end

section
/-!
`SETUP` (spec/40_setup_config.md R120 to R123): when it is refused and what it makes refused, what it leaves before the free oracle,
its one long excursion of the clock, and its body carried out twice.
-/

namespace Sys2Proof.Machine

open Sys2Proof

/-! ## The checks that belong to `SETUP` (R122) -/

theorem whenSetUp_stop {s : State} {k : Result} (h : s.setupDone = false) : whenSetUp s k = .refused .notSetUp :=
  if_neg (by simp [h])

theorem whenNotSetUp_stop {s : State} {k : Result} (h : s.setupDone = true) :
    whenNotSetUp s k = .refused .setupRepeated := if_pos h

/-- Before `SETUP` an idle block always completes it (R121). -/
theorem exec_setup {s : State} (hidle : s.seq = .idle) (hnew : s.setupDone = false) :
    exec .setup s = .next s.setupBody := exec_next.mpr ⟨hidle, hnew, rfl⟩

/-- After `SETUP` it is refused. -/
theorem exec_setup_repeated {s : State} (hidle : s.seq = .idle) (hdone : s.setupDone = true) :
    exec .setup s = .refused .setupRepeated := (whenIdle_pass hidle).trans (whenNotSetUp_stop hdone)

/-- The four commands that touch hardware are refused before `SETUP`. -/
theorem exec_before_setup {s : State} {i : Instr} (hidle : s.seq = .idle) (hnew : s.setupDone = false)
    (hi : i ∈ [Instr.isReady, .readRaw, .powerDown, .powerUp]) : exec i s = .refused .notSetUp := by
  cases i with
  | setup | setGain => simp at hi
  | isReady | readRaw | powerDown | powerUp => exact (whenIdle_pass hidle).trans (whenSetUp_stop hnew)

/-- An idle block completes `SET_GAIN` with a legal selection, set up or not (R126). -/
theorem exec_setGain {s : State} {sel : Nat} {n : BitVec 2} (hidle : s.seq = .idle) (hn : pulseCountOf sel = some n) :
    exec (.setGain sel) s = .next { s with pulseCount := n } := exec_next.mpr ⟨hidle, n, hn, rfl⟩

/-- Settles O15: each reason by the check it belongs to. -/
theorem setupOnceAndFirst : Obligations.SetupOnceAndFirst := by
  intro s hidle
  refine ⟨exec_setup_repeated hidle, fun hnew => ?_⟩
  have hrefused : ∀ i ∈ [Instr.isReady, .readRaw, .powerDown, .powerUp], exec i s = .refused .notSetUp :=
    fun _ => exec_before_setup hidle hnew
  exact ⟨hrefused _ (by simp), hrefused _ (by simp), hrefused _ (by simp), hrefused _ (by simp),
    by simp [exec_setup hidle hnew], exec_setGain hidle rfl⟩

/-! ## What `SETUP` leaves (R121, R123) -/

theorem pinModeClock_oracle {s : State} (h : s.env.chip = none) : s.pinModeClock.env = s.env := by
  unfold State.pinModeClock
  split <;> simp [turn_oracle h, drive_oracle h]

/-- `SETUP` reads nothing, so the free oracle gives no answer (R57(a)). -/
theorem setupBody_oracle {s : State} (h : s.env.chip = none) : s.setupBody.env = s.env := by
  have hclock : (s.accept .setup).pinModeClock.env = s.env := pinModeClock_oracle (by rwa [accept_env])
  simp [State.setupBody, State.endSetup, hclock, turn_oracle h, drive_oracle h, elapse_oracle h]

/-- On the wire `SETUP` is one pulse, high for `T_PD_HOLD_MIN` at least (R12, R121). -/
theorem pulses_setupTrace (clock data : PinId) : pulses clock low (setupTrace clock data) = 1 := by
  simp [pulses, setupTrace, pulsesFrom]

theorem askedHigh_setupTrace (clock data : PinId) : askedHigh clock low (setupTrace clock data) = Config.tPdHoldMin := by
  simp [setupTrace, askedHigh]

/-- Settles O14: the body in closed form, and the wake it ends every chip's sleep with. -/
theorem setupResult : Obligations.SetupResult := by
  intro s hidle hnew
  refine ⟨⟨s.setupBody.env, ?_, setupBody_oracle, fun c hc => ?_⟩, pulses_setupTrace _ _, askedHigh_setupTrace _ _⟩
  · have hbody := setupBody_eq s
    rw [← hidle] at hbody
    exact (exec_setup hidle hnew).trans (congrArg _ hbody)
  · obtain ⟨d, hd, hpower, hhigh, hsynced, hsel, hready, hcnt, hdout⟩ :=
      setupBody_chipIs (s := s) (by rw [hc]; rfl)
    exact ⟨d, hd, hpower, hready, hsel, hcnt, hdout, hsynced, hhigh⟩

/-- Settles O16: what the body sets stands already after the first time. -/
theorem secondSetupBodySame : Obligations.SecondSetupBodySame := by
  intro s
  refine ⟨s.setupBody.setupBody.env, ?_⟩
  rw [setupBody_eq s.setupBody, setupBody_eq s]

end Sys2Proof.Machine
end

section
/-!
`SET_GAIN` (spec/40_setup_config.md R126 to R129): each selection, the selection already held, and every other number.
-/

namespace Sys2Proof.Machine

open Sys2Proof

/-- Settles O17. -/
theorem setGainResult : Obligations.SetGainResult := by
  intro s hidle
  exact ⟨exec_setGain hidle rfl, exec_setGain hidle rfl, exec_setGain hidle rfl, rfl, rfl, rfl⟩

/-- A number that names no selection ends `SET_GAIN` with the fault (R128). -/
theorem exec_setGain_illegal {s : State} {sel : Nat} (hidle : s.seq = .idle) (hnone : pulseCountOf sel = none) :
    exec (.setGain sel) s = .fault .undefinedSelection := by
  refine (whenIdle_pass hidle).trans ?_
  simp [State.endSetGain, hnone]

/-- A fault is kept whatever commands were to follow (R128, R204). -/
theorem execAll_cons_fault {i : Instr} {s : State} {r : Fault} (h : exec i s = .fault r) (is : List Instr) :
    execAll (i :: is) s = .fault r := by
  simp [execAll, andThen, h]

/-- Settles O18. -/
theorem setGainIllegalSelection : Obligations.SetGainIllegalSelection := by
  intro s sel hidle h128 h32 h64
  have hnone : pulseCountOf sel = none := by
    refine Option.eq_none_iff_forall_ne_some.mpr fun n hn => ?_
    obtain h | h | h := exists_pulseCountOf.mp ⟨n, hn⟩ <;> contradiction
  have hfault := exec_setGain_illegal hidle hnone
  exact ⟨hfault, execAll_cons_fault hfault⟩

/-- Settles O19. -/
theorem setGainHeldValue : Obligations.SetGainHeldValue := by
  intro s sel hidle hheld
  rw [exec_setGain hidle (pulseCountOf_gainOf sel), ← hheld]

end Sys2Proof.Machine
end

section
/-!
Clock pulses on the wire of a read (spec/00_scope.md R12; spec/41_acquisition.md R147), and runs of command words (R130, R204).
-/

namespace Sys2Proof.Machine

open Sys2Proof

/-! ## Pulses (R12, R147) -/

/-- A bit cycle is one pulse, and leaves the clock low. -/
theorem pulsesFrom_bitTrace (clock data : PinId) (b : Level) (rest : List Event) :
    pulsesFrom clock low false (bitTrace clock data b ++ rest) = 1 + pulsesFrom clock low false rest := by
  simp [bitTrace, pulsesFrom]

theorem pulsesFrom_bitsTrace (clock data : PinId) (bs : List Level) (rest : List Event) :
    pulsesFrom clock low false (bitsTrace clock data bs ++ rest) = bs.length + pulsesFrom clock low false rest := by
  induction bs with
  | nil => simp [bitsTrace]
  | cons b bs ih =>
    rw [bitsTrace, List.append_assoc, pulsesFrom_bitTrace, ih, List.length_cons]
    omega

/-- So is a selection pulse. -/
theorem pulsesFrom_selTrace (clock : PinId) (n : Nat) : pulsesFrom clock low false (selTrace clock n) = n := by
  induction n with
  | zero => rfl
  | succ n ih =>
    simp [selTrace, pulsesFrom, ih]
    omega

/-- A read of `n` selection pulses is a frame of `24 + n` pulses (R101). -/
theorem pulses_readTrace (clock data : PinId) (bs : List Level) (n : Nat) :
    pulses clock low (readTrace clock data bs n) = bs.length + n := by
  rw [pulses, readTrace, pulsesFrom_bitsTrace, pulsesFrom_selTrace]

/-! ## Runs of command words (R204) -/

/-- The word of a command runs it, and the words after it run from where it ended. -/
theorem runWords_encode_cons {i : Instr} (h : i.wellFormed = true) (ws : List CommandWord) (s : State) :
    runWords (encode i :: ws) s = andThen (exec i s) (runWords ws) := by
  rw [runWords, offer_ok (decode_encode h)]

/-- The three words of `SET_GAIN` and their pulse counts are those of the selections (R95, R130). -/
theorem setGain_word {w : CommandWord} {n : Nat} (h : (w, n) ∈ [(0x2080#16, 1), (0x2020#16, 2), (0x2040#16, 3)]) :
    ∃ sel : Selection, w = encode (.setGain (gainOf sel)) ∧ (pulsesOf sel).toNat = n := by
  simp only [List.mem_cons, Prod.mk.injEq, List.not_mem_nil, or_false] at h
  obtain ⟨rfl, rfl⟩ | ⟨rfl, rfl⟩ | ⟨rfl, rfl⟩ := h
  · exact ⟨.a128, rfl, rfl⟩
  · exact ⟨.b32, rfl, rfl⟩
  · exact ⟨.a64, rfl, rfl⟩

theorem setGain_gainOf_wellFormed (sel : Selection) : (Instr.setGain (gainOf sel)).wellFormed = true := by
  cases sel <;> rfl

/-- Settles O20: the selection's pulse count is the number of selection pulses of the read after it. -/
theorem setGainThenReadPulses : Obligations.SetGainThenReadPulses := by
  intro s w n hidle hdone hlow hw
  obtain ⟨sel, rfl, rfl⟩ := setGain_word hw
  let t : State := { s with pulseCount := pulsesOf sel }
  have hgain : exec (.setGain (gainOf sel)) s = .next t := exec_setGain hidle (pulseCountOf_gainOf sel)
  have hrun : ∀ ws, runWords (encode (.setGain (gainOf sel)) :: ws) s = runWords ws t := fun ws => by
    rw [runWords_encode_cons (setGain_gainOf_wellFormed sel), hgain, andThen]
  have hread : exec .readRaw t = .next t.readRawBody := exec_next.mpr ⟨hidle, hdone, hlow, pulsesOf_ne_zero sel, rfl⟩
  obtain ⟨bs, e, hlen, hbody, -⟩ := readRawBody_spec t
  refine ⟨t, t.readRawBody, bs, hrun [], rfl, rfl, ?_, hlen, ?_, ?_⟩
  · calc runWords [encode (.setGain (gainOf sel)), 0x4000#16] s = runWords [encode .readRaw] t := hrun _
      _ = .next t.readRawBody := by rw [runWords_encode_cons rfl, hread]; rfl
  · rw [hbody, List.append_assoc]
    rfl
  · rw [← hlen]
    exact pulses_readTrace _ _ _ _

end Sys2Proof.Machine
end

section
/-!
The rows of `READ_RAW` (spec/41_acquisition.md R145): the primitives inside a command in closed form, and the sequencer table.
-/

namespace Sys2Proof.Machine

open Sys2Proof

/-! ## The primitives inside a command (R11, R30) -/

/-- A write inside a command, before any environment (R54). -/
theorem memWrite_run {s : State} {c : Instr} {k : Nat} (hq : s.seq = .run c k) (v : Level) : ∃ e, s.memWrite v =
    { s with sck := v, trace := s.trace ++ [.wr s.clockPin v], seq := .run c (k + 1), env := e } := by
  refine ⟨(s.memWrite v).env, ?_⟩
  have hseq : (s.memWrite v).seq = .run c (k + 1) := by rw [memWrite_seq, hq, Seq.bump]
  rw [← hseq]
  rfl

/-- A delay inside a command, before any environment (R56). -/
theorem delay_run {s : State} {c : Instr} {k : Nat} (hq : s.seq = .run c k) (n : Nat) : ∃ e, s.delay n =
    { s with trace := s.trace ++ [.dly n], seq := .run c (k + 1), env := e } := by
  refine ⟨(s.delay n).env, ?_⟩
  have hseq : (s.delay n).seq = .run c (k + 1) := by rw [delay_seq, hq, Seq.bump]
  rw [← hseq]
  rfl

/-- The SAMPLE row inside a command: the bit is the sample of the environment after its turn (R57, R144). -/
theorem sampleBit_run {s : State} {c : Instr} {k : Nat} (hq : s.seq = .run c k) : s.sampleBit =
    { s with acc := shiftIn s.acc (s.env.turn s.midFrame).sample.1,
             trace := s.trace ++ [.rd s.dataPin (s.env.turn s.midFrame).sample.1], seq := .run c (k + 1),
             env := (s.env.turn s.midFrame).sample.2 } := by
  have hseq : s.sampleBit.seq = .run c (k + 1) := by rw [sampleBit_seq, hq, Seq.bump]
  rw [← hseq]
  rfl

/-! ## The rows -/

/-- At position `(p, j)` of a pulse of the read a step is the row `(p, j)` of the table (R145). -/
theorem step_readRow {s : State} {p j : Nat} (hq : s.seq = .run .readRaw (4 * p + j)) (hj : j < 4)
    (hp : p < 24 + s.pulseCount.toNat) : step s = .next (s.readRow p j) := by
  have hcount : 4 * p + j < eventCount .readRaw s.pulseCount := by
    simp only [eventCount]
    omega
  rw [step_run_row hq hcount, row_readRaw s p hj]

/-- Every pulse of the table rises alike (R145); one of the first 24 goes on as a bit cycle. -/
theorem readRow_rise (s : State) (p : Nat) : s.readRow p 0 = s.memWrite high := ite_self _

theorem readRow_hold (s : State) {p : Nat} (hp : p < 24) : s.readRow p 1 = s.delay Config.tBitHighMin := if_pos hp

theorem readRow_sample (s : State) {p : Nat} (hp : p < 24) : s.readRow p 2 = s.sampleBit := if_pos hp

theorem readRow_fall (s : State) {p : Nat} (hp : p < 24) : s.readRow p 3 = s.memWrite low := if_pos hp

/-- From pulse 24 on the rows are those of a selection pulse (R146). -/
theorem readRow_selHold (s : State) {p : Nat} (hp : 24 ≤ p) : s.readRow p 1 = s.delay Config.tSelHigh :=
  if_neg (Nat.not_lt.mpr hp)

theorem readRow_selFall (s : State) {p : Nat} (hp : 24 ≤ p) : s.readRow p 2 = s.memWrite low :=
  if_neg (Nat.not_lt.mpr hp)

theorem readRow_selLow (s : State) {p : Nat} (hp : 24 ≤ p) : s.readRow p 3 = s.delay Config.tSelLow :=
  if_neg (Nat.not_lt.mpr hp)

/-- After the last pulse a step is the FINISH row (R145). -/
theorem step_endRead {s : State} (hq : s.seq = .run .readRaw (4 * (24 + s.pulseCount.toNat)))
    (hcount : s.pulseCount ≠ 0#2) : step s = .next s.endRead := by
  have hlast : eventCount .readRaw s.pulseCount ≤ 4 * (24 + s.pulseCount.toNat) := by
    simp only [eventCount]
    omega
  rw [step_run_last hq hlast]
  exact whenCounted_pass hcount

/-- The shift formula is the sign extension (R148): both keep the value. -/
theorem widen_eq_signExtend (acc : Pattern) : widen acc = acc.signExtend 32 :=
  BitVec.eq_of_toInt_eq (by rw [widen_toInt, BitVec.toInt_signExtend_of_le (by decide)])

/-- Settles O9, row by row: a write, a delay or a sample at each position, and FINISH. -/
theorem readRowsFollowTable : Obligations.ReadRowsFollowTable := by
  intro s p
  have hdata : p < 24 → p < 24 + s.pulseCount.toNat := fun hp => by omega
  refine ⟨fun hq hp => ?rise, fun hq hp => ?hold, fun hq hp => ?sample, fun hq hp => ?fall, fun hq h24 hp => ?selHold,
    fun hq h24 hp => ?selFall, fun hq h24 hp => ?selLow, fun hq hp hcount => ?finish⟩
  case rise =>
    obtain ⟨e, he⟩ := memWrite_run hq high
    exact ⟨e, by rw [step_readRow (j := 0) hq (by decide) hp, readRow_rise, he]⟩
  case hold =>
    obtain ⟨e, he⟩ := delay_run hq Config.tBitHighMin
    exact ⟨e, by rw [step_readRow hq (by decide) (hdata hp), readRow_hold s hp, he]⟩
  case sample =>
    rw [step_readRow hq (by decide) (hdata hp), readRow_sample s hp, sampleBit_run hq]
    rfl
  case fall =>
    obtain ⟨e, he⟩ := memWrite_run hq low
    exact ⟨e, by rw [step_readRow hq (by decide) (hdata hp), readRow_fall s hp, he, Nat.mul_succ]⟩
  case selHold =>
    obtain ⟨e, he⟩ := delay_run hq Config.tSelHigh
    exact ⟨e, by rw [step_readRow hq (by decide) hp, readRow_selHold s h24, he]⟩
  case selFall =>
    obtain ⟨e, he⟩ := memWrite_run hq low
    exact ⟨e, by rw [step_readRow hq (by decide) hp, readRow_selFall s h24, he]⟩
  case selLow =>
    obtain ⟨e, he⟩ := delay_run hq Config.tSelLow
    exact ⟨e, by rw [step_readRow hq (by decide) hp, readRow_selLow s h24, he, Nat.mul_succ]⟩
  case finish =>
    subst hp
    rw [step_endRead hq hcount, ← widen_eq_signExtend]
    rfl

end Sys2Proof.Machine
end

section
/-!
What an observer reads off the trace of a read (spec/41_acquisition.md R147, R152): samples, writes, delays and the time asked for
with the clock high, over the bit cycles and over the selection pulses.
-/

namespace Sys2Proof.Machine

open Sys2Proof

variable (clock data : PinId)

theorem samples_bitsTrace (bs : List Level) (rest : List Event) :
    samples (bitsTrace clock data bs ++ rest) = bs ++ samples rest := by
  induction bs with
  | nil => rfl
  | cons b bs ih => simp [bitsTrace, bitTrace, samples, ih]

theorem samples_selTrace (n : Nat) : samples (selTrace clock n) = [] := by
  induction n with
  | zero => rfl
  | succ n ih => simp [selTrace, samples, ih]

/-- The samples of a read are those of its bit cycles (R147). -/
theorem samples_readTrace (bs : List Level) (n : Nat) : samples (readTrace clock data bs n) = bs := by
  rw [readTrace, samples_bitsTrace, samples_selTrace, List.append_nil]

/-- A pulse drives each level once. -/
theorem high_or_low (v : Level) : (if high = v then 1 else 0) + (if low = v then 1 else 0) = 1 := by
  revert v
  decide

theorem writesOf_bitsTrace (v : Level) (bs : List Level) (rest : List Event) :
    writesOf v (bitsTrace clock data bs ++ rest) = bs.length + writesOf v rest := by
  have hpulse := high_or_low v
  induction bs with
  | nil => simp [bitsTrace]
  | cons b bs ih =>
    simp only [bitsTrace, bitTrace, List.cons_append, List.nil_append, writesOf, ih, List.length_cons]
    omega

theorem writesOf_selTrace (v : Level) (n : Nat) : writesOf v (selTrace clock n) = n := by
  have hpulse := high_or_low v
  induction n with
  | zero => rfl
  | succ n ih =>
    simp only [selTrace, List.cons_append, List.nil_append, writesOf, ih]
    omega

theorem writesOf_readTrace (v : Level) (bs : List Level) (n : Nat) :
    writesOf v (readTrace clock data bs n) = bs.length + n := by
  rw [readTrace, writesOf_bitsTrace, writesOf_selTrace]

theorem delaysIn_bitsTrace (bs : List Level) (rest : List Event) :
    delaysIn (bitsTrace clock data bs ++ rest) = bs.length + delaysIn rest := by
  induction bs with
  | nil => simp [bitsTrace]
  | cons b bs ih =>
    simp only [bitsTrace, bitTrace, List.cons_append, List.nil_append, delaysIn, ih, List.length_cons]
    omega

theorem delaysIn_selTrace (n : Nat) : delaysIn (selTrace clock n) = 2 * n := by
  induction n with
  | zero => rfl
  | succ n ih =>
    simp only [selTrace, List.cons_append, List.nil_append, delaysIn, ih]
    omega

theorem delaysIn_readTrace (bs : List Level) (n : Nat) :
    delaysIn (readTrace clock data bs n) = bs.length + 2 * n := by
  rw [readTrace, delaysIn_bitsTrace, delaysIn_selTrace]

theorem askedHigh_bitsTrace (bs : List Level) (rest : List Event) :
    askedHigh clock low (bitsTrace clock data bs ++ rest) =
      bs.length * Config.tBitHighMin + askedHigh clock low rest := by
  induction bs with
  | nil => simp [bitsTrace]
  | cons b bs ih =>
    simp [bitsTrace, bitTrace, askedHigh, ih, Nat.succ_mul]
    omega

theorem askedHigh_selTrace (n : Nat) : askedHigh clock low (selTrace clock n) = n * Config.tSelHigh := by
  induction n with
  | zero => simp [selTrace, askedHigh]
  | succ n ih =>
    simp [selTrace, askedHigh, ih, Nat.succ_mul]
    omega

theorem askedHigh_readTrace (bs : List Level) (n : Nat) : askedHigh clock low (readTrace clock data bs n) =
    bs.length * Config.tBitHighMin + n * Config.tSelHigh := by
  rw [readTrace, askedHigh_bitsTrace, askedHigh_selTrace]

theorem readTrace_length (bs : List Level) (n : Nat) : (readTrace clock data bs n).length = 4 * bs.length + 4 * n := by
  rw [readTrace, List.length_append, bitsTrace_length, selTrace_length]

/-- With the clock high on entry the first write is no edge, and the first pulse is lost (R153). -/
theorem pulses_readTrace_high (b : Level) (bs : List Level) (n : Nat) :
    pulses clock high (readTrace clock data (b :: bs) n) = bs.length + n := by
  have hfirst : pulses clock high (readTrace clock data (b :: bs) n) = pulses clock low (readTrace clock data bs n) := by
    simp [pulses, readTrace, bitsTrace, bitTrace, pulsesFrom]
  rw [hfirst, pulses_readTrace]

end Sys2Proof.Machine
end

section
/-!
The arithmetic of a reading (spec/41_acquisition.md R148, R149, R151): the pattern in the high bits of a word, the sign
extension, and the bijection between 24 samples and the readings.
-/

namespace Sys2Proof.Machine

open Sys2Proof

/-! ## The sign extension and the divisions (R148, R149) -/

/-- The pattern in the high bits of a word is 256 times as much (R149). -/
theorem append_zero_toInt (a : Pattern) : (a ++ 0#8 : BitVec 32).toInt = a.toInt * 256 := by
  have hlt := a.isLt
  have happend : (a ++ 0#8 : BitVec 32).toNat = a.toNat * 256 := by
    rw [BitVec.toNat_append, ← Nat.shiftLeft_add_eq_or_of_lt (by decide), Nat.shiftLeft_eq]
    simp
  rw [BitVec.toInt_eq_toNat_cond, BitVec.toInt_eq_toNat_cond, happend]
  split_ifs <;> omega

/-- Settles O29: nothing is rounded, for the integer is a multiple of 256. -/
theorem divisionsAgreeWithShift : Obligations.DivisionsAgreeWithShift := by
  intro a
  rw [append_zero_toInt, widen_toInt]
  exact ⟨Dvd.intro_left _ rfl, Int.mul_tdiv_cancel _ (by decide), Int.mul_fdiv_cancel _ (by decide)⟩

/-- A pattern lies in the range of raw readings (R102). -/
theorem pattern_toInt_bounds (a : Pattern) : Config.rawMin ≤ a.toInt ∧ a.toInt ≤ Config.rawMax := by
  have hmin := BitVec.le_toInt a
  have hmax := BitVec.toInt_lt (x := a)
  simp only [Config.rawMin, Config.rawMax]
  omega

/-- The bits from 23 up are copies of the sign (R148). -/
theorem widen_high_bits (a : Pattern) {i : Nat} (h : 23 ≤ i) (hi : i < 32) : (widen a).getLsbD i = a.getLsbD 23 := by
  rw [widen_eq_signExtend, BitVec.getLsbD_signExtend]
  by_cases h23 : i = 23
  · simp [h23]
  · have hsign : ¬ i < 24 := by omega
    simp [hi, hsign, BitVec.msb_eq_getLsbD_last]

/-- A read hands back `ACC` widened, and keeps it in `RESULT` (R28, R148). -/
theorem exec_readRaw_widen {s t : State} (h : exec .readRaw s = .next t) :
    t.result = widen t.acc ∧ t.responses = s.responses ++ [widen t.acc] := by
  obtain ⟨-, -, -, -, rfl⟩ := exec_next.mp h
  obtain ⟨bs, e, -, hbody, -⟩ := readRawBody_spec s
  rw [hbody]
  exact ⟨rfl, rfl⟩

/-- Settles O28. -/
theorem signExtension : Obligations.SignExtension := by
  refine ⟨fun a => ⟨rfl, widen_eq_signExtend a, fun h => ?_, fun h => ?_, ?_, ?_, fun i => widen_high_bits a⟩,
    fun s t => exec_readRaw_widen⟩
  · have hmsb : a.msb = false := (BitVec.msb_eq_getLsbD_last a).trans h
    rw [widen_toInt, BitVec.toInt_eq_msb_cond, hmsb, if_neg nofun]
  · have hmsb : a.msb = true := (BitVec.msb_eq_getLsbD_last a).trans h
    rw [widen_toInt, BitVec.toInt_eq_msb_cond, if_pos hmsb]
    rfl
  · rw [widen_toInt]
    exact (pattern_toInt_bounds a).1
  · rw [widen_toInt]
    exact (pattern_toInt_bounds a).2

/-! ## The reading and its samples (R151) -/

/-- The reading is the two's-complement value of the pattern the samples spell. -/
theorem readingOf_eq_toInt {bs : List Level} (h : bs.length = 24) :
    readingOf bs = (BitVec.ofNat 24 (patternValue bs)).toInt := by
  rw [← widen_samples_toInt h 0#24, widen_toInt, foldl_shiftIn_eq h]

theorem readingOf_bounds {bs : List Level} (h : bs.length = 24) :
    Config.rawMin ≤ readingOf bs ∧ readingOf bs ≤ Config.rawMax := by
  rw [readingOf_eq_toInt h]
  exact pattern_toInt_bounds _

/-- The response as a word is the reading as an integer (R93, R151). -/
theorem widen_pattern {bs : List Level} (h : bs.length = 24) :
    widen (BitVec.ofNat 24 (patternValue bs)) = BitVec.ofInt 32 (readingOf bs) := by
  rw [readingOf_eq_toInt h, ← widen_toInt, BitVec.ofInt_toInt]

theorem ofInt_readingOf_toInt {bs : List Level} (h : bs.length = 24) :
    (BitVec.ofInt 32 (readingOf bs)).toInt = readingOf bs := by
  rw [← widen_pattern h, widen_toInt, readingOf_eq_toInt h]

/-- Equally many samples that spell the same number are the same (R58). -/
theorem patternValue_injective {as bs : List Level} (hlen : as.length = bs.length)
    (h : patternValue as = patternValue bs) : as = bs := by
  induction as generalizing bs with
  | nil => exact (List.eq_nil_of_length_eq_zero hlen.symm).symm
  | cons a as ih =>
    obtain ⟨b, bs, rfl⟩ := List.exists_cons_of_length_eq_add_one hlen.symm
    have hlen : as.length = bs.length := Nat.succ.inj hlen
    have has := patternValue_lt as
    have hbs := patternValue_lt bs
    rw [patternValue, patternValue, hlen] at h
    rw [hlen] at has
    have hdiv : ∀ c v : Nat, v < 2 ^ bs.length → (c * 2 ^ bs.length + v) / 2 ^ bs.length = c := fun c v hv => by
      rw [Nat.add_comm, Nat.add_mul_div_right _ _ (Nat.two_pow_pos _), Nat.div_eq_of_lt hv, Nat.zero_add]
    have hhead : a.toNat = b.toNat := by rw [← hdiv a.toNat _ has, h, hdiv _ _ hbs]
    rw [hhead] at h
    rw [BitVec.eq_of_toNat_eq hhead, ih hlen (Nat.add_left_cancel h)]

/-- Every number of `n` bits is spelt by `n` samples (R58). -/
theorem exists_patternValue (n v : Nat) (h : v < 2 ^ n) : ∃ bs : List Level, bs.length = n ∧ patternValue bs = v := by
  induction n generalizing v with
  | zero => exact ⟨[], rfl, by simp only [patternValue]; omega⟩
  | succ n ih =>
    obtain ⟨bs, hlen, hvalue⟩ := ih (v % 2 ^ n) (Nat.mod_lt _ (Nat.two_pow_pos n))
    have hbit : v / 2 ^ n < 2 := Nat.div_lt_of_lt_mul h
    refine ⟨BitVec.ofNat 1 (v / 2 ^ n) :: bs, by rw [List.length_cons, hlen], ?_⟩
    rw [patternValue, hlen, hvalue, BitVec.toNat_ofNat, Nat.mod_eq_of_lt hbit, Nat.div_add_mod']

theorem readingOf_injective {as bs : List Level} (has : as.length = 24) (hbs : bs.length = 24)
    (h : readingOf as = readingOf bs) : as = bs := by
  rw [readingOf_eq_toInt has, readingOf_eq_toInt hbs, BitVec.toInt_inj] at h
  have hva := patternValue_lt as
  have hvb := patternValue_lt bs
  rw [has] at hva
  rw [hbs] at hvb
  have hvalue := congrArg BitVec.toNat h
  rw [BitVec.toNat_ofNat, BitVec.toNat_ofNat, Nat.mod_eq_of_lt hva, Nat.mod_eq_of_lt hvb] at hvalue
  exact patternValue_injective (has.trans hbs.symm) hvalue

/-- Every integer in the range is the reading of the samples that spell its pattern. -/
theorem exists_readingOf {z : Int} (hmin : Config.rawMin ≤ z) (hmax : z ≤ Config.rawMax) :
    ∃ bs : List Level, bs.length = 24 ∧ readingOf bs = z := by
  obtain ⟨bs, hlen, hvalue⟩ := exists_patternValue 24 _ (BitVec.ofInt 24 z).isLt
  refine ⟨bs, hlen, ?_⟩
  simp only [Config.rawMin, Config.rawMax] at hmin hmax
  rw [readingOf_eq_toInt hlen, hvalue, BitVec.ofNat_toNat, BitVec.setWidth_eq]
  exact BitVec.toInt_ofInt_eq_self (by decide) (by omega) (by omega)

end Sys2Proof.Machine
end

section
/-!
`READ_RAW` carried out whole (spec/41_acquisition.md R141 to R156): its next state as a function of the 24 samples, its trace, its
pulses, and the readings of a stuck data line.
-/

namespace Sys2Proof.Machine

open Sys2Proof

/-- Settles O23: the body in closed form, its samples under the free oracle the answers it draws. -/
theorem readRawResult : Obligations.ReadRawResult := by
  intro s hidle hdone hlow hcount
  obtain ⟨bs, e, hlen, hbody, hdraw⟩ := readRawBody_spec s
  rw [foldl_shiftIn_eq hlen, widen_pattern hlen, ← hlow, ← hidle] at hbody
  refine ⟨bs, e, hlen, exec_next.mpr ⟨hidle, hdone, hlow, hcount, hbody.symm⟩, fun hfree as rest has ha => ?_⟩
  have hdraw := hdraw hfree
  rw [← has, drawN_answers as rest s.env ha] at hdraw
  exact Prod.mk.inj hdraw

/-- The trace after a read, less the trace before it, is the read's own. -/
theorem samples_drop_readTrace (old : List Event) (clock data : PinId) (bs : List Level) (n : Nat) :
    samples ((old ++ readTrace clock data bs n).drop old.length) = bs := by
  rw [List.drop_left, samples_readTrace]

/-- Settles O24. -/
theorem readingIsFunctionOfSamples : Obligations.ReadingIsFunctionOfSamples := by
  refine ⟨fun s bs rest hidle hdone hlow hcount hfree hlen ha => ?_, fun bs => readingOf_bounds,
    fun as bs => readingOf_injective, fun z => exists_readingOf⟩
  obtain ⟨bs', e, -, hexec, horacle⟩ := readRawResult s hidle hdone hlow hcount
  obtain ⟨rfl, -⟩ := horacle hfree bs rest hlen ha
  exact ⟨_, hexec, ofInt_readingOf_toInt hlen, samples_drop_readTrace _ _ _ _ _⟩

/-- Settles O26: each count over the closed form of the trace. -/
theorem readTraceClosedForm : Obligations.ReadTraceClosedForm := by
  intro s hidle hdone hlow hcount
  obtain ⟨bs, e, hlen, hexec, -⟩ := readRawResult s hidle hdone hlow hcount
  refine ⟨_, bs, hexec, hlen, _, rfl, rfl, ?_, ?_, ?_, samples_readTrace _ _ _ _, ?_, ?_⟩
  · rw [readTrace_length, hlen]
  · rw [writesOf_readTrace, hlen]
  · rw [writesOf_readTrace, hlen]
  · rw [delaysIn_readTrace, hlen]
  · rw [askedHigh_readTrace, hlen]

/-- Settles O27. -/
theorem readPulseCount : Obligations.ReadPulseCount := by
  intro s hidle hdone hlow hcount
  obtain ⟨bs, e, hlen, hexec, -⟩ := readRawResult s hidle hdone hlow hcount
  have hframe : 24 + s.pulseCount.toNat ∈ [25, 26, 27] := by
    obtain ⟨hmin, hmax⟩ := pulseCount_pos hcount
    simp only [List.mem_cons, List.not_mem_nil, or_false]
    omega
  refine ⟨_, bs, hexec, hlow, hlen, (List.append_assoc _ _ _).symm, ?_, hframe, samples_drop_readTrace _ _ _ _ _,
    fun b _ => ?_⟩
  · rw [List.drop_left, pulses_readTrace, hlen]
  · have hpulse := pulsesFrom_bitTrace s.clockPin s.dataPin b []
    rw [List.append_nil] at hpulse
    exact hpulse

/-- Settles O31: the readings of four sequences of answers. -/
theorem stuckDataLineReadings : Obligations.StuckDataLineReadings := by
  intro s rest hidle hdone hlow hcount hfree
  have hread : ∀ (bs : List Level) (z : Int), bs.length = 24 → readingOf bs = z → s.env.answers = bs ++ rest →
      ∃ t, exec .readRaw s = .next t ∧ t.result.toInt = z := by
    rintro bs z hlen rfl ha
    obtain ⟨t, hexec, hresult, -⟩ := exec_readRaw_oracle hidle hdone hlow hcount hfree hlen ha
    exact ⟨t, hexec, hresult⟩
  exact ⟨hread (List.replicate 24 high) _ (by decide) (by decide), hread (List.replicate 24 low) _ (by decide) (by decide),
    hread (high :: List.replicate 23 low) _ (by decide) (by decide),
    fun ha => hread (List.replicate 23 low ++ [high]) _ (by decide) (by decide) (by rw [ha, List.append_cons])⟩

/-- The result of a read is a function of what its trace says was sampled (R151). -/
theorem exec_readRaw_result {s t : State} (h : exec .readRaw s = .next t) :
    t.result = widen ((samples (t.trace.drop s.trace.length)).foldl shiftIn 0#24) := by
  obtain ⟨-, -, -, -, rfl⟩ := exec_next.mp h
  obtain ⟨bs, e, -, hbody, -⟩ := readRawBody_spec s
  rw [hbody, samples_drop_readTrace]

/-- Settles O32. -/
theorem responseDependsOnSamplesOnly : Obligations.ResponseDependsOnSamplesOnly := by
  intro s s' t t' h h' hsamples
  rw [exec_readRaw_result h, exec_readRaw_result h', hsamples]

end Sys2Proof.Machine
end

section
/-!
What stops `READ_RAW` and what does not (spec/41_acquisition.md R153): its refusals and its fault, a read of a chip that is
not ready, whose samples are free (spec/20_memory.md R81), and the body from a high clock.
-/

namespace Sys2Proof.Machine

open Sys2Proof

/-! ## The checks (R153, R195) -/

theorem exec_readRaw_clockNotLow {s : State} (hidle : s.seq = .idle) (hdone : s.setupDone = true) (hhigh : s.sck = high) :
    exec .readRaw s = .refused .clockNotLow := by
  have hstop : ∀ k, whenClockLow s k = .refused .clockNotLow := fun k => if_neg (by rw [hhigh]; decide)
  exact (whenIdle_pass hidle).trans ((whenSetUp_pass hdone).trans (hstop _))

theorem exec_readRaw_uncounted {s : State} (hidle : s.seq = .idle) (hdone : s.setupDone = true) (hlow : s.sck = low)
    (hnone : s.pulseCount = 0#2) : exec .readRaw s = .fault .undefinedSelection :=
  (whenIdle_pass hidle).trans ((whenSetUp_pass hdone).trans ((whenClockLow_pass hlow).trans (if_pos hnone)))

/-! ## A read of a chip that is not ready (R81, R153(d)) -/

/-- Neither a write nor a delay draws an answer (R57). -/
theorem memWrite_answers (s : State) (v : Level) : (s.memWrite v).env.answers = s.env.answers := by
  rw [memWrite_env]
  split <;> exact turn_answers _ _

theorem delay_answers (s : State) (n : Nat) : (s.delay n).env.answers = s.env.answers := by
  rw [delay_env]
  exact turn_answers _ _

/-- A bit cycle on a chip out of step shifts the oracle's next answer into `ACC`. -/
theorem bitCycle_free {s : State} {b : Level} {rest : List Level} (hdir : s.sckDir = .output)
    (h : (s.env.turn s.midFrame).ChipIs (Chip.Stumbles s.pulseKind)) (ha : s.env.answers = b :: rest) :
    s.bitCycle.acc = shiftIn s.acc b ∧ s.bitCycle.env.answers = rest := by
  let u := (s.memWrite high).delay Config.tBitHighMin
  have hhold : u.env.ChipIs (Chip.Adrift (some Config.tBitHighMin)) := hold_adrift hdir (by decide) h
  obtain ⟨c, hc, -, hdesync, -⟩ := turn_chipIs newConversion_adrift hhold u.midFrame
  have hanswers : (u.env.turn u.midFrame).answers = b :: rest := by
    rw [turn_answers, delay_answers, memWrite_answers, ha]
  have hsample : (u.env.turn u.midFrame).sample = (b, { u.env.turn u.midFrame with answers := rest }) := by
    rw [sample_indefinite hc (.inr hdesync), draw_cons hanswers]
  refine ⟨congrArg (fun a : Level × Env => shiftIn s.acc a.1) hsample, ?_⟩
  exact (memWrite_answers u.sampleBit low).trans (congrArg (fun a : Level × Env => a.2.answers) hsample)

/-- So do further bit cycles, the chip staying out of step (R81). -/
theorem bitCycles_free {bs rest : List Level} {s : State} (h : s.ReadsAdrift) (ha : s.env.answers = bs ++ rest) :
    (State.bitCycles bs.length s).acc = bs.foldl shiftIn s.acc := by
  induction bs generalizing s with
  | nil => rfl
  | cons b bs ih =>
    obtain ⟨hdir, ⟨k, hq⟩, hc⟩ := h
    have hstumbles := readsAdrift_turn hc s.pulseKind
    obtain ⟨hacc, hanswers⟩ := bitCycle_free hdir hstumbles ha
    rw [List.length_cons, State.bitCycles, ih (bitCycle_readsAdrift hdir hq hstumbles) hanswers, hacc, List.foldl_cons]

/-- A read widens what its bit cycles left in `ACC` (R146, R148). -/
theorem readRawBody_result (s : State) :
    s.readRawBody.result = widen (State.bitCycles Config.dataBits (s.accept .readRaw)).acc := by
  let u := State.bitCycles Config.dataBits (s.accept .readRaw)
  obtain ⟨e, hsel, -⟩ := selPulses_spec u.pulseCount.toNat u
  have hacc : (State.selPulses u.pulseCount.toNat u).acc = u.acc := by rw [hsel]
  exact congrArg widen hacc

/-- A read that starts with no conversion on offer responds with the reading of the oracle's next 24 answers. -/
theorem readRawBody_free {s : State} {bs rest : List Level} (hdir : s.sckDir = .output)
    (h : (s.env.turn false).ChipIs (Chip.Stumbles .first)) (hlen : bs.length = 24) (ha : s.env.answers = bs ++ rest) :
    s.readRawBody.result.toInt = readingOf bs := by
  obtain ⟨b, bs', rfl⟩ := List.exists_cons_of_length_eq_add_one hlen
  have hdir' : (s.accept .readRaw).sckDir = .output := by rw [accept_sckDir, hdir]
  have hfirst : (s.accept .readRaw).bitCycle.ReadsAdrift := bitCycle_readsAdrift hdir' (accept_seq s _) h
  obtain ⟨hacc, hanswers⟩ := bitCycle_free hdir' h (ha : (s.accept .readRaw).env.answers = b :: (bs' ++ rest))
  have hbits := bitCycles_free hfirst hanswers
  have hlen' : bs'.length = 23 := Nat.succ.inj hlen
  rw [hlen', hacc] at hbits
  have hall : (State.bitCycles Config.dataBits (s.accept .readRaw)).acc = (b :: bs').foldl shiftIn 0#24 := hbits
  rw [readRawBody_result, hall, widen_samples_toInt hlen]

/-! ## The body from a high clock (R153(b)) -/

/-- A chip asleep, the clock line high. -/
def Chip.SleepsHigh (c : Chip) : Prop := c.power = .asleep ∧ c.highFor ≠ none

theorem newConversion_sleepsHigh (tag : Selection) (p : Pattern) (c : Chip) (h : c.SleepsHigh) :
    (c.newConversion tag p).SleepsHigh := by
  rw [newConversion_disabled (mayConvert_of_high h.2)]
  exact h

/-- A high level on a line that is high makes no edge (R54). -/
theorem drive_high_sleepsHigh (kind : PulseKind) {c : Chip} (h : c.SleepsHigh) : (c.drive kind high).SleepsHigh := by
  obtain ⟨held, hheld⟩ := Option.ne_none_iff_exists'.mp h.2
  have hsame : c.drive kind high = c := by simp [Chip.drive, hheld]
  rw [hsame]
  exact h

theorem elapse_sleepsHigh (n : Nat) {c : Chip} (h : c.SleepsHigh) : (c.elapse n).SleepsHigh := by
  obtain ⟨hp, hh⟩ := h
  unfold Chip.elapse
  split
  · exact ⟨hp, hh⟩
  · split
    · exact ⟨rfl, nofun⟩
    · exact ⟨hp, nofun⟩

theorem drive_low_sleepsHigh (kind : PulseKind) {c : Chip} (h : c.SleepsHigh) :
    (c.drive kind low).power = .on ∧ (c.drive kind low).sel = .a128 := by
  rw [drive_low_of_asleep h.1 h.2]
  exact ⟨rfl, rfl⟩

/-- The falling edge of a bit cycle that starts with the clock high wakes a chip asleep (R78, R153(b)). -/
theorem bitCycle_wakes {s : State} (hdir : s.sckDir = .output) (h : s.env.ChipIs Chip.SleepsHigh) :
    s.bitCycle.env.ChipIs fun d => d.power = .on ∧ d.sel = .a128 := by
  have hturn : ∀ u : State, u.env.ChipIs Chip.SleepsHigh → (u.env.turn u.midFrame).ChipIs Chip.SleepsHigh :=
    fun u hu => turn_chipIs newConversion_sleepsHigh hu _
  have hrise : (s.memWrite high).env.ChipIs Chip.SleepsHigh :=
    memWrite_chipIs hdir (hturn _ h) fun _ => drive_high_sleepsHigh _
  have hhold : ((s.memWrite high).delay Config.tBitHighMin).env.ChipIs Chip.SleepsHigh :=
    delay_chipIs (hturn _ hrise) fun _ => elapse_sleepsHigh _
  have hsample : ((s.memWrite high).delay Config.tBitHighMin).sampleBit.env.ChipIs Chip.SleepsHigh :=
    sample_chipIs (hturn _ hhold)
  exact memWrite_chipIs hdir (hturn _ hsample) fun _ => drive_low_sleepsHigh _

/-- From a high clock the body emits one pulse less (R153(b)). -/
theorem pulses_readRawBody_high (s : State) :
    pulses s.clockPin high (s.readRawBody.trace.drop s.trace.length) = 23 + s.pulseCount.toNat := by
  obtain ⟨bs, e, hlen, hbody, -⟩ := readRawBody_spec s
  obtain ⟨b, bs, rfl⟩ := List.exists_cons_of_length_eq_add_one hlen
  have hlen : bs.length = 23 := Nat.succ.inj hlen
  rw [hbody, List.drop_left, pulses_readTrace_high, hlen]

/-- Settles O30: each check by its own condition, and every read that passes them ends, whatever it samples. -/
theorem readRawStops : Obligations.ReadRawStops := by
  intro s hidle
  refine ⟨fun hnew => exec_before_setup hidle hnew (by simp), exec_readRaw_clockNotLow hidle, exec_readRaw_uncounted hidle,
    fun hdone hlow hcount => ⟨?_, fun bs rest hlen ha => ⟨fun hfree => ?_, fun c hdir hc hp hh hr => ?_⟩⟩,
    fun _ _ => ⟨pulses_readRawBody_high s, fun hdir c hc hp hh => ?_⟩⟩
  · obtain ⟨bs, e, hlen, hexec, -⟩ := readRawResult s hidle hdone hlow hcount
    exact ⟨_, bs, hexec, hlen, ofInt_readingOf_toInt hlen, rfl⟩
  · obtain ⟨t, hexec, hresult, -⟩ := exec_readRaw_oracle hidle hdone hlow hcount hfree hlen ha
    exact ⟨t, hexec, hresult⟩
  · have hstumbles : (s.env.turn false).ChipIs (Chip.Stumbles .first) := ⟨c, hc, hp, hh, .inr ⟨rfl, hr⟩⟩
    exact ⟨s.readRawBody, exec_next.mpr ⟨hidle, hdone, hlow, hcount, rfl⟩, readRawBody_free hdir hstumbles hlen ha⟩
  · exact bitCycle_wakes (by rw [accept_sckDir, hdir]) ⟨c, by rw [accept_env, hc], hp, hh⟩

end Sys2Proof.Machine
end

section
/-!
The power commands (spec/42_power.md R170 to R179): each in closed form, what each leaves of a reference chip, the power cycle, and
the power state machine.
-/

namespace Sys2Proof.Machine

open Sys2Proof

/-! ## POWER_DOWN (R170, R171) -/

/-- What `POWER_DOWN` leaves of an idle block after `SETUP`, field by field. -/
theorem exec_powerDown_eq {s : State} (hidle : s.seq = .idle) (hdone : s.setupDone = true) :
    exec .powerDown s = .next { s with
      sck := high
      power := .down
      trace := s.trace ++ [.wr s.clockPin high, .dly Config.tPdHoldMin]
      env := (((s.accept .powerDown).memWrite high).delay Config.tPdHoldMin).env } := by
  have hbody := powerDownBody_eq s
  rw [← hidle] at hbody
  exact (exec_powerDown hidle hdone).trans (congrArg _ hbody)

/-- `POWER_DOWN` reads nothing, so the free oracle gives no answer (R57(a)). -/
theorem powerDownBody_oracle {s : State} (h : s.env.chip = none) :
    (((s.accept .powerDown).memWrite high).delay Config.tPdHoldMin).env = s.env := by
  simp [turn_oracle h, drive_oracle h, elapse_oracle h]

/-- Settles O33: the body in closed form, and the sleep its hold puts every chip to. -/
theorem powerDownResult : Obligations.PowerDownResult := by
  intro s hidle hdone
  refine ⟨_, exec_powerDown_eq hidle hdone, powerDownBody_oracle, fun hdir c hc => ?_, by decide⟩
  obtain ⟨d, hd, hrests, -⟩ := powerDownBody_chipIs (b := c.desync) hdir ⟨c, hc, rfl⟩
  exact ⟨d, hd, (rests_high.mp hrests).1⟩

/-! ## POWER_UP (R174, R175, R177) -/

/-- What `POWER_UP` leaves of an idle block after `SETUP`, field by field. -/
theorem exec_powerUp_eq {s : State} (hidle : s.seq = .idle) (hdone : s.setupDone = true) :
    exec .powerUp s = .next { s with
      sck := low
      power := .active
      trace := s.trace ++ [.wr s.clockPin low]
      env := ((s.accept .powerUp).memWrite low).env } := by
  have hbody := powerUpBody_eq s
  rw [← hidle] at hbody
  exact (exec_powerUp hidle hdone).trans (congrArg _ hbody)

/-- `POWER_UP` reads nothing either. -/
theorem powerUpBody_oracle {s : State} (h : s.env.chip = none) : ((s.accept .powerUp).memWrite low).env = s.env := by
  simp [turn_oracle h, drive_oracle h]

/-- The falling edge that ends a chip's sleep wakes and resets it, whatever it had on offer (R78). -/
theorem drive_low_woken_of_sleepsHigh {c : Chip} (h : c.SleepsHigh) (kind : PulseKind) : (c.drive kind low).Woken := by
  rw [drive_low_of_asleep h.1 h.2]
  exact ⟨rfl, rfl, rfl, rfl, rfl, rfl, rfl⟩

/-- A low level on a line that is low leaves the whole environment alone (R54, R177). -/
theorem env_drive_low_of_low {e : Env} {c : Chip} (hc : e.chip = some c) (hlow : c.highFor = none) (kind : PulseKind) :
    e.drive kind low = e := by
  have hchip : e.chip.map (Chip.drive kind low) = e.chip := by rw [hc, Option.map_some, drive_low_of_low hlow]
  rw [Env.drive, hchip]

/-- With the line low already `POWER_UP` is one turn of the chip (R177(a)). -/
theorem powerUpBody_env_of_low {s : State} {c : Chip} (hc : (s.env.turn false).chip = some c) (hlow : c.highFor = none) :
    ((s.accept .powerUp).memWrite low).env = s.env.turn false := by
  have hturn : (s.accept .powerUp).env.turn (s.accept .powerUp).midFrame = s.env.turn false := rfl
  rw [memWrite_env, hturn, env_drive_low_of_low hc hlow, ite_self]

/-- Settles O34: the body in closed form; its falling edge, if there is one, wakes the chip. -/
theorem powerUpResult : Obligations.PowerUpResult := by
  intro s hidle hdone
  refine ⟨_, exec_powerUp_eq hidle hdone, powerUpBody_oracle, fun hdir c hc hp hh => ?_,
    fun _ hc hlow => powerUpBody_env_of_low hc hlow⟩
  have hasleep : (s.env.turn false).ChipIs Chip.SleepsHigh := turn_chipIs newConversion_sleepsHigh ⟨c, hc, hp, hh⟩ false
  obtain ⟨d, hd, hpower, -, hsynced, hsel, hready, hcnt, hdout⟩ :=
    memWrite_chipIs (s := s.accept .powerUp) hdir hasleep fun _ hc => drive_low_woken_of_sleepsHigh hc _
  exact ⟨d, hd, hpower, hsel, hcnt, hready, hdout, hsynced⟩

/-! ## The power cycle (R176, R178) -/

/-- A power cycle in the block: three events, `SCK` and `power`, and nothing else. -/
theorem execAll_powerCycle {s : State} (hidle : s.seq = .idle) (hdone : s.setupDone = true) :
    ∃ e, execAll powerCycle s = .next { s with
        sck := low
        power := .active
        trace := s.trace ++ [.wr s.clockPin high, .dly Config.tPdHoldMin, .wr s.clockPin low]
        env := e } ∧
      (s.env.chip = none → e = s.env) := by
  obtain ⟨e, hdown, horacle, -⟩ := powerDownResult s hidle hdone
  obtain ⟨e', hup, horacle', -⟩ := powerUpResult { s with
    sck := high, power := .down, trace := s.trace ++ [.wr s.clockPin high, .dly Config.tPdHoldMin], env := e } hidle hdone
  refine ⟨e', execAll_cons_next.mpr ⟨_, hdown, execAll_cons_next.mpr ⟨_, hup, ?_⟩⟩, fun hfree => ?_⟩
  · simp [execAll]
  · obtain rfl := horacle hfree
    exact horacle' hfree

/-- Settles O35: the block by the two closed forms, the chip by the wake every power cycle ends with. -/
theorem powerCycleForgetsSelection : Obligations.PowerCycleForgetsSelection := by
  intro s hidle hdone
  obtain ⟨e, hcycle, horacle⟩ := execAll_powerCycle hidle hdone
  refine ⟨e, hcycle, horacle, fun hdir c hc => ?_⟩
  obtain ⟨u, hu, hwoken⟩ := powerCycle_chipIs hidle hdone hdir (by rw [hc]; rfl)
  obtain rfl := Host.Outcome.next.inj (hcycle.symm.trans hu)
  obtain ⟨d, hd, hpower, -, hsynced, hsel, hready, hcnt, -⟩ := hwoken
  exact ⟨d, hd, hpower, hready, hsel, hcnt, hsynced⟩

/-! ## The power state machine (R179) -/

/-- The three states of the machine, with `setup_done` and `SCK` in each. -/
theorem power_cases {s : State} (hb : blockConditions s) :
    (s.power = .unknown ∧ s.setupDone = false) ∨ (s.power = .active ∧ s.setupDone = true ∧ s.sck = low) ∨
      (s.power = .down ∧ s.setupDone = true ∧ s.sck = high) := by
  obtain ⟨-, -, -, hbefore, hafter⟩ := hb
  cases hdone : s.setupDone with
  | false => exact .inl ⟨(hbefore hdone).1, rfl⟩
  | true =>
    obtain ⟨-, -, ⟨hpower, hsck⟩ | ⟨hpower, hsck⟩⟩ := hafter hdone
    · exact .inr (.inl ⟨hpower, rfl, hsck⟩)
    · exact .inr (.inr ⟨hpower, rfl, hsck⟩)

theorem notSetUp_of_unknown {s : State} (hb : blockConditions s) (h : s.power = .unknown) : s.setupDone = false := by
  simpa [h] using power_cases hb

theorem setUp_low_of_active {s : State} (hb : blockConditions s) (h : s.power = .active) :
    s.setupDone = true ∧ s.sck = low := by
  simpa [h] using power_cases hb

theorem setUp_high_of_down {s : State} (hb : blockConditions s) (h : s.power = .down) :
    s.setupDone = true ∧ s.sck = high := by
  simpa [h] using power_cases hb

/-- Settles O36: the rows of `POWER_DOWN` and `POWER_UP` are the same in both states after `SETUP`, and `SET_GAIN`,
`IS_READY` and `READ_RAW` stay in the state they start from. -/
theorem powerStateMachine : Obligations.PowerStateMachine := by
  intro s hb
  have ⟨hidle, hcount, _⟩ := hb
  have hgain : ∀ sel : Selection, ∃ t, exec (.setGain (gainOf sel)) s = .next t ∧ t.power = s.power ∧ t.sck = s.sck :=
    fun sel => ⟨_, exec_setGain hidle (pulseCountOf_gainOf sel), rfl, rfl⟩
  refine ⟨fun hpower => ?unknown, fun hpower => ?active, fun hpower => ?down, fun hdone => ?follows⟩
  case unknown =>
    have hnew := notSetUp_of_unknown hb hpower
    exact ⟨⟨_, exec_setup hidle hnew, by rw [setupBody_eq], by rw [setupBody_eq]⟩, hpower ▸ hgain,
      fun _ => exec_before_setup hidle hnew⟩
  case active =>
    obtain ⟨hdone, hlow⟩ := setUp_low_of_active hb hpower
    have hpoll : ∃ t, exec .isReady s = .next t ∧ t.power = .active ∧ t.sck = low :=
      ⟨_, exec_isReady hidle hdone, hpower, hlow⟩
    have hread : ∃ t, exec .readRaw s = .next t ∧ t.power = .active ∧ t.sck = low := by
      obtain ⟨bs, e, -, hexec, -⟩ := readRawResult s hidle hdone hlow hcount
      exact ⟨_, hexec, hpower, hlow⟩
    exact ⟨⟨_, exec_powerDown_eq hidle hdone, rfl, rfl⟩, ⟨_, exec_powerUp_eq hidle hdone, rfl, rfl⟩,
      hpower ▸ hlow ▸ hgain, by simpa using ⟨hpoll, hread⟩, exec_setup_repeated hidle hdone⟩
  case down =>
    obtain ⟨hdone, hhigh⟩ := setUp_high_of_down hb hpower
    exact ⟨⟨_, exec_powerUp_eq hidle hdone, rfl, rfl⟩, ⟨_, exec_powerDown_eq hidle hdone, rfl, rfl⟩,
      hpower ▸ hhigh ▸ hgain, ⟨_, exec_isReady hidle hdone, hpower, hhigh⟩,
      exec_readRaw_clockNotLow hidle hdone hhigh, exec_setup_repeated hidle hdone⟩
  case follows =>
    obtain ⟨-, hnew⟩ | ⟨hpower, -, hlow⟩ | ⟨hpower, -, hhigh⟩ := power_cases hb
    · exact absurd (hnew.symm.trans hdone) nofun
    · exact iff_of_false (by rw [hpower]; nofun) (by rw [hlow]; decide)
    · exact iff_of_true hpower hhigh

end Sys2Proof.Machine
end

section
/-!
The order of the reasons for a stop (spec/60_exceptions.md R195), and the good run of a caller that follows the contract
(spec/60_exceptions.md R204; spec/70_reset_and_hazards.md R224, R225): it gives none of those reasons.
-/

namespace Sys2Proof.Machine

open Sys2Proof

/-- Settles O38: each reason by the check it belongs to, the checks before it passed. -/
theorem checksInOrder : Obligations.ChecksInOrder := by
  refine ⟨fun s w rest r hidle hwords hd => ?_, fun i s hidle => ⟨exec_before_setup hidle, ?_, ?_, ?_⟩⟩
  · rw [step_idle_word hidle hwords]
    exact offer_illegalCommand.mpr ⟨r, hd⟩
  · rintro hdone rfl
    exact exec_setup_repeated hidle hdone
  · rintro hdone rfl
    exact exec_readRaw_clockNotLow hidle hdone
  · rintro hdone rfl
    exact exec_readRaw_uncounted hidle hdone

/-! ## What the contract permits (R225) -/

/-- The gain numbers the contract permits are the three of the selections (R95). -/
theorem gain_of_permitted {s : State} {sel : Nat} (h : permitted s (.setGain sel) = true) :
    sel = 128 ∨ sel = 32 ∨ sel = 64 := by
  obtain ⟨c, hc⟩ := Option.isSome_iff_exists.mp h
  exact exists_pulseCountOf.mp ⟨pulsesOf c, by rw [pulseCountOf, hc, Option.map_some]⟩

/-- A command word carries every permitted command. -/
theorem wellFormed_of_permitted {s : State} {i : Instr} (h : permitted s i = true) : i.wellFormed = true := by
  cases i with
  | setGain sel => obtain rfl | rfl | rfl := gain_of_permitted h <;> rfl
  | _ => rfl

/-- A permitted command completes: the contract and the block's conditions answer every check before it (R195). -/
theorem exec_completes_of_permitted {s : State} {i : Instr} (hb : blockConditions s) (h : permitted s i = true) :
    ∃ t, exec i s = .next t := by
  obtain ⟨hidle, hcount, -⟩ := hb
  refine (commandCompletesExactlyWhen i s).mpr ⟨hidle, ?_⟩
  cases i with
  | setup => simpa [permitted] using h
  | setGain sel => exact gain_of_permitted h
  | readRaw =>
    simp only [permitted, Bool.and_eq_true, decide_eq_true_eq] at h
    obtain ⟨⟨hdone, hlow⟩, -⟩ := h
    exact ⟨hdone, hlow, hcount⟩
  | isReady | powerDown | powerUp => exact h

/-! ## Good runs (R204) -/

/-- A run with no command is good when the block is idle. -/
theorem goodRun_nil {s : State} (hidle : s.seq = .idle) : goodRun [] s = true := decide_eq_true hidle

/-- After a command that ended with a next state, a run is as good as what follows it. -/
theorem goodRun_encode_cons {i : Instr} {s t : State} (hwf : i.wellFormed = true) (h : exec i s = .next t)
    (ws : List CommandWord) : goodRun (encode i :: ws) s = goodRun ws t := by
  rw [goodRun, runWords_encode_cons hwf, h]
  rfl

/-- Settles O46, by induction on the commands: each completes, and leaves the block's conditions to the next. -/
theorem contractRunIsGood : Obligations.ContractRunIsGood := by
  intro is
  induction is with
  | nil => exact fun s hb _ => goodRun_nil hb.1
  | cons i is ih =>
    rintro s hb ⟨hperm, hrest⟩
    obtain ⟨t, ht⟩ := exec_completes_of_permitted hb hperm
    rw [List.map_cons, goodRun_encode_cons (wellFormed_of_permitted hperm) ht]
    exact ih t (exec_keeps_blockConditions hb ht) (hrest t ht)

end Sys2Proof.Machine
end

section
/-!
Construction (spec/70_reset_and_hazards.md R220, R221; spec/10_state.md R37): a legal selection gives a block, every other number
the fault.
-/

namespace Sys2Proof.Machine

open Sys2Proof

/-- Every other gain number names no pulse count (R128). -/
theorem pulseCountOf_eq_none {sel : Nat} (h128 : sel ≠ 128) (h32 : sel ≠ 32) (h64 : sel ≠ 64) :
    pulseCountOf sel = none := by
  refine Option.eq_none_iff_forall_ne_some.mpr fun n hn => ?_
  obtain h | h | h := exists_pulseCountOf.mp ⟨n, hn⟩ <;> contradiction

/-- The selections and their pulse counts, as listed (R100). -/
theorem pulseCountOf_of_mem {sel : Nat} {n : BitVec 2} (h : (sel, n) ∈ [(128, 1#2), (32, 2#2), (64, 3#2)]) :
    pulseCountOf sel = some n := by
  simp only [List.mem_cons, List.not_mem_nil, or_false, Prod.mk.injEq] at h
  obtain ⟨rfl, rfl⟩ | ⟨rfl, rfl⟩ | ⟨rfl, rfl⟩ := h <;> rfl

/-- With two distinct pins an illegal selection ends construction with the fault (R221). -/
theorem construct_illegal {clock data : PinId} {sel : Nat} (hpins : clock ≠ data) (hnone : pulseCountOf sel = none)
    (env : Env) : State.construct clock data sel env = .fault .undefinedSelection := by
  rw [State.construct, if_neg hpins, hnone]

/-- Settles O11: the block `State.constructed` describes, or the fault. -/
theorem constructionFollowsSelection : Obligations.ConstructionFollowsSelection := by
  intro clock data env hpins
  refine ⟨fun sel n hmem => ?_, fun sel h128 h32 h64 => construct_illegal hpins (pulseCountOf_eq_none h128 h32 h64) env⟩
  have hblock : State.construct clock data sel env = .next (State.constructed clock data n env) :=
    construct_next.mpr ⟨hpins, n, pulseCountOf_of_mem hmem, rfl⟩
  exact ⟨_, hblock, rfl, rfl, rfl, rfl, rfl, rfl, rfl, rfl, rfl, rfl⟩

end Sys2Proof.Machine
end

section
/-!
The least duration of each command (spec/70_reset_and_hazards.md R246): the delays in the events it appends, added up.
-/

namespace Sys2Proof.Machine

open Sys2Proof

theorem askedTime_bitsTrace (clock data : PinId) (bs : List Level) (rest : List Event) :
    askedTime (bitsTrace clock data bs ++ rest) = bs.length * Config.tBitHighMin + askedTime rest := by
  induction bs with
  | nil => simp [bitsTrace]
  | cons b bs ih =>
    simp only [bitsTrace, bitTrace, List.cons_append, List.nil_append, askedTime, ih, List.length_cons, Nat.succ_mul]
    omega

theorem askedTime_selTrace (clock : PinId) (n : Nat) :
    askedTime (selTrace clock n) = n * (Config.tSelHigh + Config.tSelLow) := by
  induction n with
  | zero => simp [selTrace, askedTime]
  | succ n ih =>
    simp only [selTrace, List.cons_append, List.nil_append, askedTime, ih, Nat.succ_mul]
    omega

/-- A read asks for the high time of each bit cycle and for both times of each selection pulse (R144, R146). -/
theorem askedTime_readTrace (clock data : PinId) (bs : List Level) (n : Nat) : askedTime (readTrace clock data bs n) =
    bs.length * Config.tBitHighMin + n * (Config.tSelHigh + Config.tSelLow) := by
  rw [readTrace, askedTime_bitsTrace, askedTime_selTrace]

/-- `SETUP` asks for its one hold (R121). -/
theorem askedTime_setupTrace (clock data : PinId) : askedTime (setupTrace clock data) = Config.tPdHoldMin := rfl

/-- Settles O41: the events each command appends, as its closed form gives them, and the time they ask for. -/
theorem leastDurations : Obligations.LeastDurations := by
  intro i s t h
  have happended : ∀ tail, t.trace = s.trace ++ tail → askedTime (t.trace.drop s.trace.length) = askedTime tail := by
    intro tail htrace
    rw [htrace, List.drop_left]
  obtain ⟨-, h⟩ := exec_next.mp h
  cases i with
  | setup =>
    obtain ⟨-, rfl⟩ := h
    exact (happended _ (by rw [setupBody_eq])).trans (askedTime_setupTrace _ _)
  | setGain sel =>
    obtain ⟨n, -, rfl⟩ := h
    exact happended [] (List.append_nil _).symm
  | isReady =>
    obtain ⟨-, rfl⟩ := h
    exact happended [.rd s.dataPin (s.accept .isReady).memRead.1] (by rw [isReadyBody_eq])
  | readRaw =>
    obtain ⟨-, -, -, rfl⟩ := h
    obtain ⟨bs, e, hlen, hbody, -⟩ := readRawBody_spec s
    rw [happended _ (by rw [hbody]), askedTime_readTrace, hlen]
    rfl
  | powerDown =>
    obtain ⟨-, rfl⟩ := h
    exact happended [.wr s.clockPin high, .dly Config.tPdHoldMin] (by rw [powerDownBody_eq])
  | powerUp =>
    obtain ⟨-, rfl⟩ := h
    exact happended [.wr s.clockPin low] (by rw [powerUpBody_eq])

end Sys2Proof.Machine
end
